-- ==== Sys2Proof/Word.lean ====
section
/-! DEFINITION. The value types of the core (spec/00_scope.md R5, R8; spec/10_state.md R11, R14, R15):
bytes, 16-bit words, 12-bit address immediates, register and key numbers. -/

namespace Sys2Proof

/-- A register, timer or memory cell: 8 bits (R11, R20, R21, R26). -/
abbrev Byte := BitVec 8

/-- `I`, `PC`, a stack entry or an opcode: 16 bits (R14, R15, R18, R60). -/
abbrev Word := BitVec 16

/-- The immediate `NNN = op[11:0]` (R61). -/
abbrev Addr12 := BitVec 12

/-- A register number `X` or `Y`, 0 to 15 (R11, R61). -/
abbrev Reg := Fin 16

/-- A key number, 0 to 15 (R24). -/
abbrev Key := Fin 16

/-- The flag register VF is the general register `V[15]` (R13). -/
abbrev regF : Reg := 15

end Sys2Proof
end

