-- ==== Sys2Proof/Config.lean ====
section
/-! DEFINITION. What is fixed for the machine (spec/00_scope.md R5) and its one free input, the random byte
of CXNN. The parameter `FONT` is data of the state (Machine/State.lean, field `font`), so that every statement
about all states quantifies over it (R28). -/

namespace Sys2Proof

/-- MEM_SIZE: 4096 cells, addresses 0x000 to 0xFFF (R5, R40). -/
@[simp, reducible] def Config.memSize : Nat := 0x1000

/-- PROG_BASE: where a ROM is loaded and where `PC` starts (R5, R220). -/
@[simp, reducible] def Config.progBase : Nat := 0x200

/-- The longest ROM: 0x1000 - 0x200 = 3584 bytes (R221). -/
@[simp, reducible] def Config.romRoom : Nat := 3584

/-- FONT_LEN: the font table fills 0x000 to 0x04F (R5, R27). -/
@[simp, reducible] def Config.fontLen : Nat := 80

/-- STACK_DEPTH: 16 return addresses (R5, R18). -/
@[simp, reducible] def Config.stackDepth : Nat := 16

/-- DISP_W: 64 columns (R5, R163). -/
@[simp, reducible] def Config.dispW : Nat := 64

/-- DISP_H: 32 rows (R5, R163). -/
@[simp, reducible] def Config.dispH : Nat := 32

/-- `Rnd()`: the byte drawn at the `n`-th execution of CXNN, a free value under no law (R8, R131,
92_eei_decisions.md D17). It has no body, so no proof can see which byte it is. -/
opaque Config.rnd : Nat → Byte

end Sys2Proof
end

