-- ==== Sys2Proof/Machine/State.lean ====
section
/-! DEFINITION. The state of the core (spec/10_state.md R10), the reasons of a halt (R190), the state after
reset (R31), and the reasons for which the model itself gives no next state. -/

namespace Sys2Proof.Machine

/-- The four fault kinds of the hardware, a closed list (R190). Raising one is a NEXT state whose `status` is
`halted` (R191), not an outcome of the interface. -/
inductive HaltReason where
  /-- A memory access above 0x0FFF: fetch, DXYN, FX33, FX55, FX65 (R192). -/
  | outOfRangeAccess
  /-- 2NNN with `SP = 16` (R193). -/
  | stackOverflow
  /-- 00EE with `SP = 0` (R194). -/
  | stackUnderflow
  /-- The fetched word matches no row of the opcode table (R195). -/
  | unknownOpcode
  deriving DecidableEq, Repr

/-- `STATUS`, the interpreter's state machine (R25). -/
inductive Status where
  | running
  /-- FX0A waits for a key for register `x` (R172). -/
  | waitingForKey (x : Reg)
  /-- Stopped by a fault until the next `Reset` (R191, R198). -/
  | halted (reason : HaltReason)
  deriving DecidableEq, Repr

/-- `MEM` as the cells that differ from their reset contents: addresses strictly rising, none above 0x0FFF, no
entry equal to what an unlisted address reads as (`Memory.wf`, Machine/Memory.lean). -/
abbrev Memory := List Host.Cell

/-- `FB`: row `y` of the grid is entry `y`, and bit `x` of it is the pixel `FB[x][y]` (R22). -/
abbrev Framebuffer := Vector (BitVec 64) 32

/-- The parameter `FONT[0..79]` (R28). -/
abbrev Font := Vector Byte 80

/-- The whole state of the core (R10), and two fields of the MODEL's own: `draws`, which counts the
executions of CXNN so that each takes a fresh byte of `Config.rnd`, and `font`, the machine's parameter `FONT`,
which no event changes. -/
structure State where
  /-- `MEM[a]`, 4096 cells (R26). -/
  mem : Memory
  /-- `V[i]` (R11). -/
  v : Vector Byte 16
  /-- `I` (R14). -/
  i : Word
  /-- `PC` (R15). -/
  pc : Word
  /-- `STACK[j]` (R18). -/
  stack : Vector Word 16
  /-- `SP`, the number of live entries, 0 to 16 (R19). -/
  sp : Fin 17
  /-- `DT` (R20). -/
  dt : Byte
  /-- `ST` (R21). -/
  st : Byte
  /-- `FB[x][y]` (R22). -/
  fb : Framebuffer
  /-- `REDRAW` (R23). -/
  redraw : Bool
  /-- `KEY[k]`, `true` for down (R24). -/
  key : Vector Bool 16
  /-- `STATUS` (R25). -/
  status : Status
  /-- The model's own: how many random bytes have been drawn (R8, R131; notes/assumptions/1.md). -/
  draws : Nat
  /-- The model's own: the parameter `FONT` (R28, R32; notes/assumptions/2.md). -/
  font : Font
  deriving DecidableEq, Repr

/-- Why the interface gets a fault. The hardware's own faults are `HaltReason`s and never appear here. -/
inductive Fault where
  /-- The event `Reset(ROM)` with a ROM longer than 3584 bytes: "a load error", after which "this spec
  defines no machine state" (R221, 92_eei_decisions.md D15). Raised by `resetWith` only, never by a step. Safe: no
  claim can be made of such a launch. -/
  | romLoadError
  deriving DecidableEq, Repr

/-- Why the interface gets a refusal. -/
inductive Refusal where
  /-- An instruction whose meaning is not written. No arm raises it: all 34 have their meaning. Safe. -/
  | notModelled (mnemonic : String)
  deriving DecidableEq, Repr

/-- The state after `Reset(ROM)` with an empty ROM (R31, R220): the font in place and every other cell zero,
which is memory with nothing listed. `KEY` is the host's and has no reset value: all up here, DESIGN CHOICE
(notes/assumptions/3.md); `draws` starts at 0, DESIGN CHOICE (notes/assumptions/1.md); `font` is the default
table of R28, PRESUMED (notes/assumptions/2.md). -/
def State.reset : State where
  mem := []
  v := Vector.replicate 16 0
  i := 0
  pc := 0x0200
  stack := Vector.replicate 16 0
  sp := 0
  dt := 0
  st := 0
  fb := Vector.replicate 32 0
  redraw := false
  key := Vector.replicate 16 false
  status := .running
  draws := 0
  font := defaultFont

end Sys2Proof.Machine
end

