-- ==== Sys2Proof/Machine/Flags.lean ====
section
/-! DEFINITION. The values written to the flag `V[15]` (spec/10_state.md R13): always 0 or 1. -/

namespace Sys2Proof.Machine

/-- A truth value as a flag. -/
def flagOf (c : Bool) : Byte := if c then 1 else 0

/-- 8XY4: 1 if `vx + vy > 255` (R126). -/
def carryFlag (vx vy : Byte) : Byte := flagOf (decide (vx.toNat + vy.toNat > 255))

/-- 8XY5 with `a = vx`, `b = vy`, and 8XY7 with the two exchanged: 1 if `a >= b`, no borrow (R127, R129). -/
def noBorrowFlag (a b : Byte) : Byte := flagOf (decide (a.toNat ≥ b.toNat))

/-- 8XY6: `vx[0]`, the bit shifted out (R128). -/
def shiftRightFlag (vx : Byte) : Byte := flagOf (vx.getLsbD 0)

/-- 8XYE: `vx[7]`, the bit shifted out (R130). -/
def shiftLeftFlag (vx : Byte) : Byte := flagOf (vx.getLsbD 7)

/-- DXYN: 1 if any pixel went from set to unset (R161). -/
def collisionFlag (collision : Bool) : Byte := flagOf collision

end Sys2Proof.Machine
end

