-- ==== Sys2Proof/Machine/Memory.lean ====
section
/-! DEFINITION. `MEM` as a list of cells (spec/20_memory.md R40, R42, R43): what an unlisted address reads as,
the read and the write of one cell, and the canonical form that every write keeps. The guard on the address is
in Machine/Ops.lean. -/

namespace Sys2Proof.Machine

/-- What a cell that the list does not name holds: the contents after a reset with an empty ROM, the font at
0x000 to 0x04F and zero above (R31, R49). -/
def unlisted (font : Font) (a : Nat) : Byte := if h : a < 80 then font[a] else 0

/-- `MEM[a]`. -/
def Memory.read (m : Memory) (font : Font) (a : Nat) : Byte :=
  match m with
  | [] => unlisted font a
  | (c, b) :: rest => if a = c then b else Memory.read rest font a

/-- The list without any entry for `a`. -/
def Memory.erase (m : Memory) (a : Nat) : Memory :=
  match m with
  | [] => []
  | (c, b) :: rest => if a = c then Memory.erase rest a else (c, b) :: Memory.erase rest a

/-- The list with an entry for `a` before the first larger address. -/
def Memory.place (m : Memory) (a : Nat) (b : Byte) : Memory :=
  match m with
  | [] => [(a, b)]
  | (c, d) :: rest => if a < c then (a, b) :: (c, d) :: rest else (c, d) :: Memory.place rest a b

/-- `MEM[a] <- b`: writing what an unlisted cell reads as removes the entry. -/
def Memory.write (m : Memory) (font : Font) (a : Nat) (b : Byte) : Memory :=
  if b = unlisted font a then m.erase a else (m.erase a).place a b

/-- The bytes of `bs` stored at `base`, `base + 1`, ... in ascending order (R48). -/
def Memory.writeList (m : Memory) (font : Font) (base : Nat) (bs : List Byte) : Memory :=
  match bs with
  | [] => m
  | b :: rest => Memory.writeList (m.write font base b) font (base + 1) rest

/-- The canonical form: strictly rising addresses of existing cells, each entry different from what the
address would read as unlisted. -/
abbrev Memory.wf (m : Memory) (font : Font) : Prop :=
  m.Pairwise (fun c d => c.1 < d.1) ∧ ∀ c ∈ m, c.1 < 0x1000 ∧ c.2 ≠ unlisted font c.1

end Sys2Proof.Machine
end

