-- ==== Sys2Proof/Machine/Ops.lean ====
section
/-! DEFINITION. The named operations every meaning is written with: register and memory access with the address
guard (spec/20_memory.md R41 to R44), the ways to leave `PC` (spec/10_state.md R16), the call stack (R18, R19),
raising a fault and leaving the halted state (spec/60_exceptions.md R191, R198), the fetch and the keypad poll
(spec/40_execution_cycle.md R82, R83). -/

namespace Sys2Proof.Machine

/-- A step's outcome on this machine. -/
abbrev Result := Host.Outcome State Fault Refusal

/-! ## Named reads and updates of one element -/

/-- `V[x]` (R8). -/
def State.getV (s : State) (x : Reg) : Byte := s.v[x]
/-- `V[x] <- b` (R8). -/
def State.setV (s : State) (x : Reg) (b : Byte) : State := { s with v := s.v.set x b }
/-- `I <- w` (R8). -/
def State.setI (s : State) (w : Word) : State := { s with i := w }
/-- `PC <- w` (R7). -/
def State.setPc (s : State) (w : Word) : State := { s with pc := w }
/-- `DT <- b` (R20). -/
def State.setDt (s : State) (b : Byte) : State := { s with dt := b }
/-- `ST <- b` (R21). -/
def State.setSt (s : State) (b : Byte) : State := { s with st := b }
/-- `FB <- fb` (R22). -/
def State.setFb (s : State) (fb : Framebuffer) : State := { s with fb := fb }
/-- `REDRAW <- r` (R23). -/
def State.setRedraw (s : State) (r : Bool) : State := { s with redraw := r }
/-- `KEY[k] <- b` (R206). -/
def State.setKey (s : State) (k : Key) (b : Bool) : State := { s with key := s.key.set k b }
/-- `STATUS <- st` (R25). -/
def State.setStatus (s : State) (st : Status) : State := { s with status := st }
/-- Memory replaced as a whole. -/
def State.setMem (s : State) (m : Memory) : State := { s with mem := m }
/-- The call stack replaced: its entries and `SP` (R18, R19). -/
def State.setStack (s : State) (stack : Vector Word 16) (sp : Fin 17) : State := { s with stack := stack, sp := sp }
/-- All general registers replaced. -/
def State.setRegs (s : State) (v : Vector Byte 16) : State := { s with v := v }
/-- One more random byte has been drawn (the model's own field). -/
def State.countDraw (s : State) : State := { s with draws := s.draws + 1 }

/-- `MEM[a]`, the read of one byte, without the guard. -/
def State.byteAt (s : State) (a : Nat) : Byte := s.mem.read s.font a
/-- `MEM[base + j] <- bs[j]` for every `j`, without the guard. -/
def State.storeBytes (s : State) (base : Nat) (bs : List Byte) : State :=
  s.setMem (s.mem.writeList s.font base bs)

/-! ## Faults -/

/-- `raise K`: the status becomes `Halted(K)` and no other state element changes, `PC` included (R8, R191). -/
def raise (k : HaltReason) (s : State) : Result := .next (s.setStatus (.halted k))

/-- The event `Reset(ROM)`, the only way out of `Halted` (R198, R220, R223): everything is initialised but
`KEY`, which the host owns, and the model's own `draws` and `font`. A ROM longer than 3584 bytes is a load error
(R221). -/
def resetWith (rom : List Byte) (s : State) : Result :=
  if rom.length ≤ Config.romRoom then
    .next ({ State.reset with key := s.key, draws := s.draws, font := s.font }.storeBytes Config.progBase rom)
  else .fault .romLoadError

/-! ## The memory bus (R40 to R44) -/

/-- `MemRead(a, 1)` (R42). -/
def memRead (s : State) (a : Nat) : Except HaltReason Byte :=
  if a > 0xFFF then .error .outOfRangeAccess else .ok (s.byteAt a)

/-- `MemWrite(a, 1, b)` (R43). -/
def memWrite (s : State) (a : Nat) (b : Byte) : Except HaltReason State :=
  if a > 0xFFF then .error .outOfRangeAccess else .ok (s.storeBytes a [b])

/-- Every address of `base`, ..., `base + n - 1` is valid; the highest decides (R41, R44). -/
abbrev rangeValid (base n : Nat) : Prop := n = 0 ∨ base + n - 1 ≤ 0xFFF

/-- The `n` bytes from `base` on, ascending; the whole range is guarded before the first read (R44, R48). -/
def readBytes (s : State) (base n : Nat) : Except HaltReason (List Byte) :=
  if rangeValid base n then .ok ((List.range n).map fun j => s.byteAt (base + j))
  else .error .outOfRangeAccess

/-- The bytes `bs` stored from `base` on, ascending; the whole range is guarded before the first write
(R44, R48). -/
def writeBytes (s : State) (base : Nat) (bs : List Byte) : Except HaltReason State :=
  if rangeValid base bs.length then .ok (s.storeBytes base bs) else .error .outOfRangeAccess

/-! ## How an instruction leaves `PC` (R16, R85) -/

/-- `PC <- (pc0 + 2) mod 65536`: the instruction is complete. -/
def advance (s : State) : Result := .next (s.setPc (s.pc + 2))

/-- A skip: `PC <- pc0 + 4` if the condition holds, else `PC <- pc0 + 2`. -/
def skipIf (c : Bool) (s : State) : Result := .next (s.setPc (if c then s.pc + 4 else s.pc + 2))

/-- A jump: the target is written as it stands and gets no further advance (R85, R108). -/
def jumpTo (target : Word) (s : State) : Result := .next (s.setPc target)

/-! ## Flags -/

/-- `V[15] <- flag`, then `V[x] <- result`: with `x = 15` the result stands (R13, R133). -/
def writeFlagThen (x : Reg) (flag result : Byte) (s : State) : State := (s.setV regF flag).setV x result

/-! ## The call stack (R18, R19) -/

/-- Push `w` and jump, or `StackOverflow` when `SP = 16`: the write is at `STACK[SP]`, then `SP` grows
(R102). -/
def callTo (target : Word) (s : State) : Result :=
  if h : s.sp.val < 16 then
    jumpTo target (s.setStack (s.stack.set s.sp.val (s.pc + 2)) ⟨s.sp.val + 1, by omega⟩)
  else raise .stackOverflow s

/-- Pop into `PC`, or `StackUnderflow` when `SP = 0`: `SP` shrinks, then `STACK[SP]` is read; the entry stays
(R100). -/
def returnFrom (s : State) : Result :=
  if h : 0 < s.sp.val then
    jumpTo (s.stack[s.sp.val - 1]'(by omega)) (s.setStack s.stack ⟨s.sp.val - 1, by omega⟩)
  else raise .stackUnderflow s

/-! ## The keypad poll (R82) -/

/-- The lowest-numbered key that is down. -/
def lowestKeyDown (key : Vector Bool 16) : Option Key := (List.finRange 16).find? fun k => key[k]

/-- `Step` in `WaitingForKey(x)`: store the lowest key that is down and go on, or change nothing (R82). -/
def pollKeypad (x : Reg) (s : State) : Result :=
  match lowestKeyDown s.key with
  | some k => advance ((s.setV x (BitVec.ofNat 8 k.val)).setStatus .running)
  | none => .next s

end Sys2Proof.Machine
end

