-- ==== Sys2Proof/Machine/Operands.lean ====
section
/-! DEFINITION. The operand forms of the instructions: the zero-extended immediates (spec/30_encoding.md R63),
the base address `I` (spec/43_index_memory.md R146), the registers `V[0]` to `V[X]` of FX55 and FX65, the decimal
digits of FX33, the key index of EX9E and EXA1 (spec/45_keypad_timers.md R176), and the pixels of DXYN
(spec/44_display.md R161, R162). -/

namespace Sys2Proof.Machine

/-- `zext_16(NNN)` (R63). -/
def target12 (nnn : Addr12) : Word := nnn.setWidth 16

/-- `zext_16(v)` of a byte (R107, R141). -/
def zext16 (b : Byte) : Word := b.setWidth 16

/-- The base address `i0`, all 16 bits of `I`, never masked (R14, R56). -/
def State.base (s : State) : Nat := s.i.toNat

/-- The values of `V[0]` to `V[X]`, both ends included (R144). -/
def State.lowRegs (s : State) (x : Reg) : List Byte := s.v.toList.take (x.val + 1)

/-- `V[j] <- bs[j]` for every index of `bs`; the other registers keep their values (R145). -/
def State.loadRegs (s : State) (bs : List Byte) : State :=
  s.setRegs (Vector.ofFn fun j => bs.getD j.val s.v[j])

/-- The three decimal digits: hundreds, tens, ones (R143). -/
def bcdDigits (vx : Byte) : List Byte := [vx / 100#8, vx / 10#8 % 10#8, vx % 10#8]

/-- Bytes per glyph of the font: FX29 multiplies the whole 8-bit value by 5 (R142). -/
def glyphAddress (vx : Byte) : Word := zext16 vx * 5#16

/-- `k = vx[3:0]` (R176). -/
def keyIndex (vx : Byte) : Key := ⟨vx.toNat % 16, Nat.mod_lt _ (by decide)⟩

/-- `KEY[k]` for the key that `V[x]` selects (R170, R171, R176). -/
def State.keyDown (s : State) (x : Reg) : Bool := s.key[keyIndex (s.getV x)]

/-! ## Pixels -/

/-- `FB[x][y]`. -/
def Framebuffer.pixel (fb : Framebuffer) (x : Fin 64) (y : Fin 32) : Bool := fb[y].getLsbD x.val

/-- `FB[x][y] <- FB[x][y] XOR 1`. -/
def Framebuffer.toggle (fb : Framebuffer) (x : Fin 64) (y : Fin 32) : Framebuffer :=
  fb.set y (fb[y] ^^^ (1#64 <<< x.val))

/-- `FB[x][y]` of a state. -/
def State.pixel (s : State) (x : Fin 64) (y : Fin 32) : Bool := Framebuffer.pixel s.fb x y

/-- A column reduced mod 64 (R161). -/
def wrapX (x : Nat) : Fin 64 := ⟨x % 64, Nat.mod_lt _ (by decide)⟩
/-- A row reduced mod 32 (R161). -/
def wrapY (y : Nat) : Fin 32 := ⟨y % 32, Nat.mod_lt _ (by decide)⟩

/-- The framebuffer while a sprite is drawn, and whether a pixel has gone from 1 to 0 so far. -/
abbrev Canvas := Framebuffer × Bool

/-- The pixel of a sprite bit 1: collision if it was set, then XOR with 1 (R161). -/
def drawPixel (c : Canvas) (x : Fin 64) (y : Fin 32) : Canvas :=
  (Framebuffer.toggle c.1 x y, c.2 || Framebuffer.pixel c.1 x y)

/-- Bit `7 - col` of a sprite byte is its pixel number `col` (R161, R162). -/
def spriteBit (b : Byte) (col : Nat) : Bool := b.getLsbD (7 - col)

/-- One sprite row: the eight bits of `b`, from column `x0` on, in row `y` (both wrapped, R161). -/
def drawRow (c : Canvas) (x0 y : Nat) (b : Byte) : Canvas :=
  (List.range 8).foldl (fun c col => if spriteBit b col then drawPixel c (wrapX (x0 + col)) (wrapY y) else c) c

/-- The sprite rows `bs`, the first in row `y0` (R161). -/
def drawSprite (c : Canvas) (x0 y0 : Nat) (bs : List Byte) : Canvas :=
  match bs with
  | [] => c
  | b :: rest => drawSprite (drawRow c x0 y0 b) x0 (y0 + 1) rest

end Sys2Proof.Machine
end

