-- ==== Sys2Proof/Machine/Alu.lean ====
section
/-! DEFINITION. Register load, arithmetic, logic, shift, random (spec/42_alu.md R120 to R133). Every operand is
read from the state before the instruction, every result is 8 bits wide and wraps (R132). -/

namespace Sys2Proof.Machine

/-- 6XNN (R120). -/
def execLdVxNn (x : Reg) (nn : Byte) (s : State) : Result := advance (s.setV x nn)

/-- 7XNN (R121): `V[15]` is not written as a flag. -/
def execAddVxNn (x : Reg) (nn : Byte) (s : State) : Result := advance (s.setV x (s.getV x + nn))

/-- 8XY0 (R122). -/
def execLdVxVy (x y : Reg) (s : State) : Result := advance (s.setV x (s.getV y))

/-- 8XY1 (R123). -/
def execOrVxVy (x y : Reg) (s : State) : Result := advance (s.setV x (s.getV x ||| s.getV y))

/-- 8XY2 (R124). -/
def execAndVxVy (x y : Reg) (s : State) : Result := advance (s.setV x (s.getV x &&& s.getV y))

/-- 8XY3 (R125). -/
def execXorVxVy (x y : Reg) (s : State) : Result := advance (s.setV x (s.getV x ^^^ s.getV y))

/-- 8XY4 (R126, R133). -/
def execAddVxVy (x y : Reg) (s : State) : Result :=
  advance (writeFlagThen x (carryFlag (s.getV x) (s.getV y)) (s.getV x + s.getV y) s)

/-- 8XY5 (R127, R133). -/
def execSubVxVy (x y : Reg) (s : State) : Result :=
  advance (writeFlagThen x (noBorrowFlag (s.getV x) (s.getV y)) (s.getV x - s.getV y) s)

/-- 8XY6 (R128, R133): the operand is `V[X]`; the field `Y` is ignored (R67). -/
def execShrVx (x _y : Reg) (s : State) : Result :=
  advance (writeFlagThen x (shiftRightFlag (s.getV x)) (s.getV x >>> 1) s)

/-- 8XY7 (R129, R133): the result goes to `V[X]`. -/
def execSubnVxVy (x y : Reg) (s : State) : Result :=
  advance (writeFlagThen x (noBorrowFlag (s.getV y) (s.getV x)) (s.getV y - s.getV x) s)

/-- 8XYE (R130, R133): the operand is `V[X]`; the field `Y` is ignored (R67). -/
def execShlVx (x _y : Reg) (s : State) : Result :=
  advance (writeFlagThen x (shiftLeftFlag (s.getV x)) (s.getV x <<< 1) s)

/-- CXNN (R131): `NN AND r`, where `r` is a byte no earlier execution has drawn. -/
def execRndVxNn (x : Reg) (nn : Byte) (s : State) : Result :=
  advance ((s.setV x (nn &&& Config.rnd s.draws)).countDraw)

end Sys2Proof.Machine
end

