-- ==== Sys2Proof/Machine/ControlFlow.lean ====
section
/-! DEFINITION. Control flow (spec/41_control_flow.md R100 to R107): return, jump, call, skips, indexed jump. -/

namespace Sys2Proof.Machine

/-- 00EE (R100). -/
def execRet (s : State) : Result := returnFrom s

/-- 1NNN (R101). -/
def execJpNnn (nnn : Addr12) (s : State) : Result := jumpTo (target12 nnn) s

/-- 2NNN (R102): the address of the next instruction, `pc0 + 2`, is pushed. -/
def execCallNnn (nnn : Addr12) (s : State) : Result := callTo (target12 nnn) s

/-- 3XNN (R103). -/
def execSeVxNn (x : Reg) (nn : Byte) (s : State) : Result := skipIf (s.getV x == nn) s

/-- 4XNN (R104). -/
def execSneVxNn (x : Reg) (nn : Byte) (s : State) : Result := skipIf (s.getV x != nn) s

/-- 5XY0 (R105). -/
def execSeVxVy (x y : Reg) (s : State) : Result := skipIf (s.getV x == s.getV y) s

/-- 9XY0 (R106). -/
def execSneVxVy (x y : Reg) (s : State) : Result := skipIf (s.getV x != s.getV y) s

/-- BNNN (R107): always `V[0]`; the sum is not reduced to 12 bits. -/
def execJpV0Nnn (nnn : Addr12) (s : State) : Result := jumpTo (target12 nnn + zext16 (s.getV 0)) s

end Sys2Proof.Machine
end

