-- ==== Sys2Proof/Machine/Display.lean ====
section
/-! DEFINITION. Display (spec/44_display.md R160, R161): clear and sprite draw. -/

namespace Sys2Proof.Machine

/-- 00E0 (R160): `REDRAW` is set even when the grid was clear. -/
def execCls (s : State) : Result := advance ((s.setFb (Vector.replicate 32 0)).setRedraw true)

/-- DXYN (R161): the position is read before `V[15]` is written; `REDRAW` is set whether or not a pixel
changed; with `N = 0` nothing is read. -/
def execDrwVxVyN (x y : Reg) (n : Nat) (s : State) : Result :=
  match readBytes s s.base n with
  | .ok bs =>
    let c := drawSprite (s.fb, false) (s.getV x).toNat (s.getV y).toNat bs
    advance (((s.setFb c.1).setV regF (collisionFlag c.2)).setRedraw true)
  | .error k => raise k s

end Sys2Proof.Machine
end

