-- ==== Sys2Proof/Machine/IndexMemory.lean ====
section
/-! DEFINITION. Index register and memory instructions (spec/43_index_memory.md R140 to R145). `I` is not
changed by a load or a store. -/

namespace Sys2Proof.Machine

/-- ANNN (R140). -/
def execLdINnn (nnn : Addr12) (s : State) : Result := advance (s.setI (target12 nnn))

/-- FX1E (R141): a 16-bit sum, no flag, no fault. -/
def execAddIVx (x : Reg) (s : State) : Result := advance (s.setI (s.i + zext16 (s.getV x)))

/-- FX29 (R142). -/
def execLdFVx (x : Reg) (s : State) : Result := advance (s.setI (glyphAddress (s.getV x)))

/-- FX33 (R143). -/
def execLdBVx (x : Reg) (s : State) : Result :=
  match writeBytes s s.base (bcdDigits (s.getV x)) with
  | .ok t => advance t
  | .error k => raise k s

/-- FX55 (R144). -/
def execLdMemVx (x : Reg) (s : State) : Result :=
  match writeBytes s s.base (s.lowRegs x) with
  | .ok t => advance t
  | .error k => raise k s

/-- FX65 (R145). -/
def execLdVxMem (x : Reg) (s : State) : Result :=
  match readBytes s s.base (x.val + 1) with
  | .ok bs => advance (s.loadRegs bs)
  | .error k => raise k s

end Sys2Proof.Machine
end

