-- ==== Sys2Proof/Machine/KeypadTimers.lean ====
section
/-! DEFINITION. Keypad and timer instructions (spec/45_keypad_timers.md R170 to R175). -/

namespace Sys2Proof.Machine

/-- EX9E (R170). -/
def execSkpVx (x : Reg) (s : State) : Result := skipIf (s.keyDown x) s

/-- EXA1 (R171). -/
def execSknpVx (x : Reg) (s : State) : Result := skipIf (!s.keyDown x) s

/-- FX07 (R173). -/
def execLdVxDt (x : Reg) (s : State) : Result := advance (s.setV x s.dt)

/-- FX0A (R172): the wait begins; `PC` is not written and `KEY` is not looked at. A later step completes it
(`pollKeypad`, R82). -/
def execLdVxK (x : Reg) (s : State) : Result := .next (s.setStatus (.waitingForKey x))

/-- FX15 (R174). -/
def execLdDtVx (x : Reg) (s : State) : Result := advance (s.setDt (s.getV x))

/-- FX18 (R175). -/
def execLdStVx (x : Reg) (s : State) : Result := advance (s.setSt (s.getV x))

end Sys2Proof.Machine
end

