-- ==== Sys2Proof/Syntax.lean ====
section
/-! DEFINITION. The 34 instructions (spec/30_encoding.md R66), one constructor per row of
spec/opcode_table.json, in the table's order. The operands are the fields of R61: `x` and `y` register numbers,
`nn` an 8-bit immediate, `nnn` a 12-bit address, `n` the sprite height, a count (R63). -/

namespace Sys2Proof

/-- One constructor per row of the opcode table. -/
inductive Instr where
  /-- 00E0, clear screen (R160). -/
  | cls
  /-- 00EE, return (R100). -/
  | ret
  /-- 1NNN, jump (R101). -/
  | jpNnn (nnn : Addr12)
  /-- 2NNN, call (R102). -/
  | callNnn (nnn : Addr12)
  /-- 3XNN, skip if equal to immediate (R103). -/
  | seVxNn (x : Reg) (nn : Byte)
  /-- 4XNN, skip if not equal to immediate (R104). -/
  | sneVxNn (x : Reg) (nn : Byte)
  /-- 5XY0, skip if registers equal (R105). -/
  | seVxVy (x y : Reg)
  /-- 6XNN, load immediate (R120). -/
  | ldVxNn (x : Reg) (nn : Byte)
  /-- 7XNN, add immediate (R121). -/
  | addVxNn (x : Reg) (nn : Byte)
  /-- 8XY0, copy register (R122). -/
  | ldVxVy (x y : Reg)
  /-- 8XY1, bitwise OR (R123). -/
  | orVxVy (x y : Reg)
  /-- 8XY2, bitwise AND (R124). -/
  | andVxVy (x y : Reg)
  /-- 8XY3, bitwise XOR (R125). -/
  | xorVxVy (x y : Reg)
  /-- 8XY4, add with carry out (R126). -/
  | addVxVy (x y : Reg)
  /-- 8XY5, subtract (R127). -/
  | subVxVy (x y : Reg)
  /-- 8XY6, shift right by one (R128); the field `y` is decoded and not used (R67). -/
  | shrVx (x y : Reg)
  /-- 8XY7, reverse subtract (R129). -/
  | subnVxVy (x y : Reg)
  /-- 8XYE, shift left by one (R130); the field `y` is decoded and not used (R67). -/
  | shlVx (x y : Reg)
  /-- 9XY0, skip if registers differ (R106). -/
  | sneVxVy (x y : Reg)
  /-- ANNN, load index (R140). -/
  | ldINnn (nnn : Addr12)
  /-- BNNN, jump with offset `V[0]` (R107). -/
  | jpV0Nnn (nnn : Addr12)
  /-- CXNN, masked random (R131). -/
  | rndVxNn (x : Reg) (nn : Byte)
  /-- DXYN, draw sprite (R161). -/
  | drwVxVyN (x y : Reg) (n : Nat)
  /-- EX9E, skip if key down (R170). -/
  | skpVx (x : Reg)
  /-- EXA1, skip if key up (R171). -/
  | sknpVx (x : Reg)
  /-- FX07, read delay timer (R173). -/
  | ldVxDt (x : Reg)
  /-- FX0A, wait for key (R172). -/
  | ldVxK (x : Reg)
  /-- FX15, set delay timer (R174). -/
  | ldDtVx (x : Reg)
  /-- FX18, set sound timer (R175). -/
  | ldStVx (x : Reg)
  /-- FX1E, add register to index (R141). -/
  | addIVx (x : Reg)
  /-- FX29, point index at font glyph (R142). -/
  | ldFVx (x : Reg)
  /-- FX33, store binary-coded decimal (R143). -/
  | ldBVx (x : Reg)
  /-- FX55, store registers (R144). -/
  | ldMemVx (x : Reg)
  /-- FX65, load registers (R145). -/
  | ldVxMem (x : Reg)
  deriving DecidableEq, Repr

end Sys2Proof
end

