-- ==== Sys2Proof/WellFormed.lean ====
section
/-! DEFINITION. Which terms of `Instr` are instructions of the machine. Register numbers and immediates have
their width by type; the one operand that is a plain number is the sprite height of DXYN, "a count 0 to 15"
(spec/30_encoding.md R61, R63). -/

namespace Sys2Proof

/-- The sprite height fits the 4-bit field `N` (R61, R63). -/
def Instr.heightFits : Instr → Bool
  | .drwVxVyN _ _ n => decide (n ≤ 15)
  | .cls | .ret | .jpNnn _ | .callNnn _ | .seVxNn _ _ | .sneVxNn _ _ | .seVxVy _ _ | .ldVxNn _ _
  | .addVxNn _ _ | .ldVxVy _ _ | .orVxVy _ _ | .andVxVy _ _ | .xorVxVy _ _ | .addVxVy _ _ | .subVxVy _ _
  | .shrVx _ _ | .subnVxVy _ _ | .shlVx _ _ | .sneVxVy _ _ | .ldINnn _ | .jpV0Nnn _ | .rndVxNn _ _
  | .skpVx _ | .sknpVx _ | .ldVxDt _ | .ldVxK _ | .ldDtVx _ | .ldStVx _ | .addIVx _ | .ldFVx _ | .ldBVx _
  | .ldMemVx _ | .ldVxMem _ => true

/-- A well-formed instruction: every operand fits the field its encoding gives it. -/
def WellFormed (i : Instr) : Bool := i.heightFits

end Sys2Proof
end

