-- ==== Sys2Proof/Decode.lean ====
section
/-! DEFINITION. The decoder of spec/30_encoding.md R64, total on all 65536 words, and the encoder written from
the layouts of R62. A word that matches no row is rejected by name (R68); too few bytes are rejected by name. -/

namespace Sys2Proof

/-- Why bytes are no instruction. -/
inductive DecodeReject where
  /-- Fewer than the two bytes every instruction has (R60). -/
  | truncated
  /-- The word matches no row of the opcode table (R64, R68). -/
  | unknownOpcode (op : Word)
  deriving DecidableEq, Repr

/-- `hi ++ lo`: the byte at the lower address is `op[15:8]` (R45). -/
def opcodeOf (hi lo : Byte) : Word := hi ++ lo

/-- The nibble of `op` whose lowest bit is bit `lo`. -/
def nibble (op : Word) (lo : Nat) : Fin 16 := ⟨op.toNat / 2 ^ lo % 16, Nat.mod_lt _ (by decide)⟩

/-- `op[15:12]` (R61). -/
def fieldF (op : Word) : Nat := (nibble op 12).val
/-- `X = op[11:8]` (R61). -/
def fieldX (op : Word) : Reg := nibble op 8
/-- `Y = op[7:4]` (R61). -/
def fieldY (op : Word) : Reg := nibble op 4
/-- `N = op[3:0]`, a count (R61, R63). -/
def fieldN (op : Word) : Nat := (nibble op 0).val
/-- `NN = op[7:0]` (R61). -/
def fieldNN (op : Word) : Byte := op.extractLsb' 0 8
/-- `NNN = op[11:0]` (R61). -/
def fieldNNN (op : Word) : Addr12 := op.extractLsb' 0 12

/-- Family 0: two fixed words (R64). -/
def decodeFamily0 (op : Word) : Option Instr :=
  if op = 0x00E0#16 then some .cls
  else if op = 0x00EE#16 then some .ret
  else none

/-- Family 8: nine operations chosen by the low nibble (R64). -/
def decodeFamily8 (op : Word) : Option Instr :=
  match fieldN op with
  | 0x0 => some (.ldVxVy (fieldX op) (fieldY op))
  | 0x1 => some (.orVxVy (fieldX op) (fieldY op))
  | 0x2 => some (.andVxVy (fieldX op) (fieldY op))
  | 0x3 => some (.xorVxVy (fieldX op) (fieldY op))
  | 0x4 => some (.addVxVy (fieldX op) (fieldY op))
  | 0x5 => some (.subVxVy (fieldX op) (fieldY op))
  | 0x6 => some (.shrVx (fieldX op) (fieldY op))
  | 0x7 => some (.subnVxVy (fieldX op) (fieldY op))
  | 0xE => some (.shlVx (fieldX op) (fieldY op))
  | _ => none

/-- Family E: two key tests chosen by the low byte (R64). -/
def decodeFamilyE (op : Word) : Option Instr :=
  match (fieldNN op).toNat with
  | 0x9E => some (.skpVx (fieldX op))
  | 0xA1 => some (.sknpVx (fieldX op))
  | _ => none

/-- Family F: nine instructions chosen by the low byte (R64). -/
def decodeFamilyF (op : Word) : Option Instr :=
  match (fieldNN op).toNat with
  | 0x07 => some (.ldVxDt (fieldX op))
  | 0x0A => some (.ldVxK (fieldX op))
  | 0x15 => some (.ldDtVx (fieldX op))
  | 0x18 => some (.ldStVx (fieldX op))
  | 0x1E => some (.addIVx (fieldX op))
  | 0x29 => some (.ldFVx (fieldX op))
  | 0x33 => some (.ldBVx (fieldX op))
  | 0x55 => some (.ldMemVx (fieldX op))
  | 0x65 => some (.ldVxMem (fieldX op))
  | _ => none

/-- `decode(op)` of R64; `none` is `Unknown`. Every fixed nibble is compared. -/
def decodeOp (op : Word) : Option Instr :=
  match fieldF op with
  | 0x0 => decodeFamily0 op
  | 0x1 => some (.jpNnn (fieldNNN op))
  | 0x2 => some (.callNnn (fieldNNN op))
  | 0x3 => some (.seVxNn (fieldX op) (fieldNN op))
  | 0x4 => some (.sneVxNn (fieldX op) (fieldNN op))
  | 0x5 => if fieldN op = 0 then some (.seVxVy (fieldX op) (fieldY op)) else none
  | 0x6 => some (.ldVxNn (fieldX op) (fieldNN op))
  | 0x7 => some (.addVxNn (fieldX op) (fieldNN op))
  | 0x8 => decodeFamily8 op
  | 0x9 => if fieldN op = 0 then some (.sneVxVy (fieldX op) (fieldY op)) else none
  | 0xA => some (.ldINnn (fieldNNN op))
  | 0xB => some (.jpV0Nnn (fieldNNN op))
  | 0xC => some (.rndVxNn (fieldX op) (fieldNN op))
  | 0xD => some (.drwVxVyN (fieldX op) (fieldY op) (fieldN op))
  | 0xE => decodeFamilyE op
  | 0xF => decodeFamilyF op
  | _ => none

/-- Decoding of bytes in memory order, high byte first (R45, R60): the instruction and the bytes after it. -/
def decode : List Byte → Except DecodeReject (Instr × List Byte)
  | hi :: lo :: rest =>
    match decodeOp (opcodeOf hi lo) with
    | some i => .ok (i, rest)
    | none => .error (.unknownOpcode (opcodeOf hi lo))
  | _ => .error .truncated

/-! ## The encoder (R62, R66) -/

/-- Format `A`: `F NNN`. -/
def encodeA (f : Nat) (nnn : Addr12) : Word := BitVec.ofNat 16 (f * 0x1000 + nnn.toNat)
/-- Format `XI`: `F X NN`. -/
def encodeXI (f : Nat) (x : Reg) (nn : Byte) : Word := BitVec.ofNat 16 (f * 0x1000 + x.val * 0x100 + nn.toNat)
/-- Formats `XY` and `XYN`: `F X Y n`. -/
def encodeXYN (f : Nat) (x y : Reg) (n : Nat) : Word :=
  BitVec.ofNat 16 (f * 0x1000 + x.val * 0x100 + y.val * 0x10 + n)
/-- Format `X`: `F X` and a fixed low byte. -/
def encodeX (f : Nat) (x : Reg) (low : Nat) : Word := BitVec.ofNat 16 (f * 0x1000 + x.val * 0x100 + low)

/-- The word of an instruction, from the layouts of R62 and the `match` column of R66. -/
def encode : Instr → Word
  | .cls => 0x00E0#16
  | .ret => 0x00EE#16
  | .jpNnn nnn => encodeA 0x1 nnn
  | .callNnn nnn => encodeA 0x2 nnn
  | .seVxNn x nn => encodeXI 0x3 x nn
  | .sneVxNn x nn => encodeXI 0x4 x nn
  | .seVxVy x y => encodeXYN 0x5 x y 0x0
  | .ldVxNn x nn => encodeXI 0x6 x nn
  | .addVxNn x nn => encodeXI 0x7 x nn
  | .ldVxVy x y => encodeXYN 0x8 x y 0x0
  | .orVxVy x y => encodeXYN 0x8 x y 0x1
  | .andVxVy x y => encodeXYN 0x8 x y 0x2
  | .xorVxVy x y => encodeXYN 0x8 x y 0x3
  | .addVxVy x y => encodeXYN 0x8 x y 0x4
  | .subVxVy x y => encodeXYN 0x8 x y 0x5
  | .shrVx x y => encodeXYN 0x8 x y 0x6
  | .subnVxVy x y => encodeXYN 0x8 x y 0x7
  | .shlVx x y => encodeXYN 0x8 x y 0xE
  | .sneVxVy x y => encodeXYN 0x9 x y 0x0
  | .ldINnn nnn => encodeA 0xA nnn
  | .jpV0Nnn nnn => encodeA 0xB nnn
  | .rndVxNn x nn => encodeXI 0xC x nn
  | .drwVxVyN x y n => encodeXYN 0xD x y n
  | .skpVx x => encodeX 0xE x 0x9E
  | .sknpVx x => encodeX 0xE x 0xA1
  | .ldVxDt x => encodeX 0xF x 0x07
  | .ldVxK x => encodeX 0xF x 0x0A
  | .ldDtVx x => encodeX 0xF x 0x15
  | .ldStVx x => encodeX 0xF x 0x18
  | .addIVx x => encodeX 0xF x 0x1E
  | .ldFVx x => encodeX 0xF x 0x29
  | .ldBVx x => encodeX 0xF x 0x33
  | .ldMemVx x => encodeX 0xF x 0x55
  | .ldVxMem x => encodeX 0xF x 0x65

/-- `op[15:8]`, the byte stored at the lower address (R45). -/
def highByte (op : Word) : Byte := op.extractLsb' 8 8
/-- `op[7:0]`, the byte stored at the higher address (R45). -/
def lowByte (op : Word) : Byte := op.extractLsb' 0 8

/-- The two bytes of an instruction in memory order (R45). -/
def encodeBytes (i : Instr) : List Byte := [highByte (encode i), lowByte (encode i)]

/-! ## The opcode table's fixed bits -/

/-- One field of fixed bits `op[hi:lo] = value` of a row of spec/opcode_table.json. -/
structure FixedField where
  hi : Nat
  lo : Nat
  value : Nat
  deriving DecidableEq, Repr

/-- The word holds the field's value in the field's bits. -/
def FixedField.holds (f : FixedField) (op : Word) : Prop := op.toNat / 2 ^ f.lo % 2 ^ (f.hi + 1 - f.lo) = f.value

/-- Fixed bits of the formats `A`, `XI`, `XYN`: the family nibble. -/
def fixedFamily (f : Nat) : List FixedField := [⟨15, 12, f⟩]
/-- Fixed bits of the format `XY`: the family and the low nibble. -/
def fixedXY (f n : Nat) : List FixedField := [⟨3, 0, n⟩, ⟨15, 12, f⟩]
/-- Fixed bits of the format `X`: the family nibble and the low byte. -/
def fixedX (f low : Nat) : List FixedField := [⟨7, 0, low⟩, ⟨15, 12, f⟩]

/-- The column "fixed" of the instruction's row in spec/opcode_table.json. -/
def Instr.fixedFields : Instr → List FixedField
  | .cls => [⟨15, 0, 224⟩]
  | .ret => [⟨15, 0, 238⟩]
  | .jpNnn _ => fixedFamily 1
  | .callNnn _ => fixedFamily 2
  | .seVxNn _ _ => fixedFamily 3
  | .sneVxNn _ _ => fixedFamily 4
  | .seVxVy _ _ => fixedXY 5 0
  | .ldVxNn _ _ => fixedFamily 6
  | .addVxNn _ _ => fixedFamily 7
  | .ldVxVy _ _ => fixedXY 8 0
  | .orVxVy _ _ => fixedXY 8 1
  | .andVxVy _ _ => fixedXY 8 2
  | .xorVxVy _ _ => fixedXY 8 3
  | .addVxVy _ _ => fixedXY 8 4
  | .subVxVy _ _ => fixedXY 8 5
  | .shrVx _ _ => fixedXY 8 6
  | .subnVxVy _ _ => fixedXY 8 7
  | .shlVx _ _ => fixedXY 8 14
  | .sneVxVy _ _ => fixedXY 9 0
  | .ldINnn _ => fixedFamily 10
  | .jpV0Nnn _ => fixedFamily 11
  | .rndVxNn _ _ => fixedFamily 12
  | .drwVxVyN _ _ _ => fixedFamily 13
  | .skpVx _ => fixedX 14 158
  | .sknpVx _ => fixedX 14 161
  | .ldVxDt _ => fixedX 15 7
  | .ldVxK _ => fixedX 15 10
  | .ldDtVx _ => fixedX 15 21
  | .ldStVx _ => fixedX 15 24
  | .addIVx _ => fixedX 15 30
  | .ldFVx _ => fixedX 15 41
  | .ldBVx _ => fixedX 15 51
  | .ldMemVx _ => fixedX 15 85
  | .ldVxMem _ => fixedX 15 101

/-- The instruction the decoder reads from an instruction whose bits are `w`, numbered as
spec/opcode_table.json numbers them: the word is laid out in memory order (R45) and given to `decode`. -/
def decodeTableWord (nbits w : Nat) : Option Instr :=
  let op : Word := BitVec.ofNat 16 (w % 2 ^ nbits)
  match decode [highByte op, lowByte op] with
  | .ok (i, _) => some i
  | .error _ => none

end Sys2Proof
end

