-- ==== Sys2Proof/Machine/Fetch.lean ====
section
/-! DEFINITION. Fetch and decode of the `Step` event (spec/40_execution_cycle.md R83, R84), and the placing of
a word where the next step fetches. -/

namespace Sys2Proof.Machine

/-- The 16-bit opcode at `PC`, high byte first; `pc0 + 1` is not wrapped (R83). -/
def fetch (s : State) : Except HaltReason Word :=
  match memRead s s.pc.toNat, memRead s (s.pc.toNat + 1) with
  | .ok hi, .ok lo => .ok (opcodeOf hi lo)
  | .error k, _ => .error k
  | _, .error k => .error k

/-- Fetch, then decode: an unknown word raises `UnknownOpcode` (R84, R195). -/
def fetchDecode (s : State) : Except HaltReason Instr :=
  match fetch s with
  | .error k => .error k
  | .ok op =>
    match decodeOp op with
    | some i => .ok i
    | none => .error .unknownOpcode

/-- The state with the word `op` at `PC`, in state `Running`; a `PC` from which nothing can be fetched is first
set to 0x0200. -/
def placeWord (s : State) (op : Word) : State :=
  let t := (if s.pc.toNat ≤ 0xFFE then s else s.setPc 0x0200).setStatus .running
  t.storeBytes t.pc.toNat [highByte op, lowByte op]

end Sys2Proof.Machine
end

