-- ==== Sys2Proof/Machine/Step.lean ====
section
/-! DEFINITION. The `Step` event (spec/40_execution_cycle.md R80 to R85): at most one instruction, or one
keypad poll, or nothing when halted. -/

namespace Sys2Proof.Machine

/-- `Step()` (R80). -/
def step (s : State) : Host.Outcome State Fault Refusal :=
  match s.status with
  | .halted _ => .next s
  | .waitingForKey x => pollKeypad x s
  | .running =>
    match fetchDecode s with
    | .ok i => exec i s
    | .error k => raise k s

/-- The state `s` with the instruction whose bits are `w` (numbered as the opcode table numbers them) where
`step` fetches next (`placeWord`). -/
def State.withFetchWord (s : State) (nbits w : Nat) : State := placeWord s (BitVec.ofNat 16 (w % 2 ^ nbits))

end Sys2Proof.Machine
end

