-- ==== Sys2Proof/Machine/HostEvents.lean ====
section
/-! DEFINITION. The five atomic events of spec/00_scope.md R6, the outputs the host may read, and the numeric
codes of the faults (spec/60_exceptions.md R190, R203 to R208). The machine's `step` is the event `Step`; the
other four are the host's moves. -/

namespace Sys2Proof.Machine

/-- A timer counts down to 0 and stops there (R203). -/
def countDown (b : Byte) : Byte := if b = 0 then 0 else b - 1

/-- `Tick`: both timers, in every status (R203). -/
def tick (s : State) : State := (s.setDt (countDown s.dt)).setSt (countDown s.st)

/-- `KeyWrite(k, b)` (R206). -/
def keyWrite (k : Key) (b : Bool) (s : State) : State := s.setKey k b

/-- `RedrawClear` (R207). -/
def redrawClear (s : State) : State := s.setRedraw false

/-- The atomic events (R6). -/
inductive Event where
  | reset (rom : List Byte)
  | step
  | tick
  | keyWrite (k : Key) (down : Bool)
  | redrawClear
  deriving DecidableEq, Repr

/-- What an event does to the machine (R205). -/
def applyEvent (e : Event) (s : State) : Result :=
  match e with
  | .reset rom => resetWith rom s
  | .step => step s
  | .tick => .next (tick s)
  | .keyWrite k b => .next (keyWrite k b s)
  | .redrawClear => .next (redrawClear s)

/-- The one-shot output `ToneEnd`: emitted by the `Tick` that lowers `ST` from 1 to 0, and by no other event
(R204). It is not state. -/
def toneEnd (e : Event) (s : State) : Bool :=
  match e with
  | .tick => s.st == 1
  | .reset _ | .step | .keyWrite _ _ | .redrawClear => false

/-- A run: events in order, stopping at the first that gives no state. The order is the host's choice
(R226, R229). The end of a run is where the finite list ends: DESIGN CHOICE, since R89 and D25 leave the end-of-run
convention to the model (notes/assumptions/26.md). -/
def runEvents (es : List Event) (s : State) : Result :=
  match es with
  | [] => .next s
  | e :: rest =>
    match applyEvent e s with
    | .next t => runEvents rest t
    | .fault f => .fault f
    | .refused r => .refused r

/-- The outputs the host may read between events: `STATUS`, `FB`, `REDRAW` (R6, R208). -/
structure HostView where
  status : Status
  fb : Framebuffer
  redraw : Bool
  deriving DecidableEq, Repr

/-- Reading the outputs changes nothing (R205). -/
def hostView (s : State) : HostView := ⟨s.status, s.fb, s.redraw⟩

/-- The 3-bit code of a fault kind (R190); only a label. -/
def HaltReason.code : HaltReason → BitVec 3
  | .outOfRangeAccess => 1
  | .stackOverflow => 2
  | .stackUnderflow => 3
  | .unknownOpcode => 4

/-- The reason field of `STATUS`: 0 while the machine is not halted (R190). -/
def Status.reasonField : Status → BitVec 3
  | .running | .waitingForKey _ => 0
  | .halted k => k.code

end Sys2Proof.Machine
end

