-- ==== Sys2Proof/Safety.lean ====
section
/-! DEFINITION. The terms the claims use: which parts of the state an instruction leaves alone, the invariants
of the machine, and safe states. -/

namespace Sys2Proof.Machine

/-- The parts of the state other than `PC`. -/
inductive Part where
  | regs | index | stack | delayTimer | soundTimer | memory | display | redrawFlag | keys | status | draws | font
  deriving DecidableEq, Repr

/-- The part has the same contents in both states: registers one by one, memory byte by byte through the
machine's read, the display pixel by pixel. -/
def Part.same (p : Part) (s t : State) : Prop :=
  match p with
  | .regs => ∀ r, t.getV r = s.getV r
  | .index => t.i = s.i
  | .stack => t.stack = s.stack ∧ t.sp = s.sp
  | .delayTimer => t.dt = s.dt
  | .soundTimer => t.st = s.st
  | .memory => ∀ a, t.byteAt a = s.byteAt a
  | .display => ∀ x y, t.pixel x y = s.pixel x y
  | .redrawFlag => t.redraw = s.redraw
  | .keys => t.key = s.key
  | .status => t.status = s.status
  | .draws => t.draws = s.draws
  | .font => t.font = s.font

/-- Every part outside the list is unchanged; nothing is said of `PC`. -/
def SameBut (changed : List Part) (s t : State) : Prop := ∀ p, p ∉ changed → p.same s t

/-- Every general register outside the list is unchanged. -/
def RegsSameBut (xs : List Reg) (s t : State) : Prop := ∀ r, r ∉ xs → t.getV r = s.getV r

/-- Every byte outside `base`, ..., `base + n - 1` is unchanged. -/
def BytesSameBut (base n : Nat) (s t : State) : Prop := ∀ a, ¬(base ≤ a ∧ a < base + n) → t.byteAt a = s.byteAt a

/-- `PC` moves on by `k` bytes, mod 65536 (R16). -/
def PcMoves (k : Nat) (s t : State) : Prop := t.pc.toNat = (s.pc.toNat + k) % 65536

/-- No fault has stopped the machine. A correct program never halts: every halt reason is an error (R89). -/
def Safe (s : State) : Prop := ∀ k, s.status ≠ .halted k

/-- `MEM` is in the canonical form. -/
def MemoryCanonical (s : State) : Prop := s.mem.wf s.font

/-- `PC <= 0x10FE`, every stack entry is at most 0x1000, and a waiting machine could fetch at `PC` (R17, R18). -/
def PcBounded (s : State) : Prop :=
  s.pc.toNat ≤ 0x10FE ∧ (∀ j : Fin 16, s.stack[j].toNat ≤ 0x1000) ∧
    ∀ x, s.status = .waitingForKey x → s.pc.toNat ≤ 0xFFE

/-- The instruction the next step executes; none while it waits, is halted, or when fetch or decode faults. -/
def nextInstr (s : State) : Option Instr :=
  match s.status with
  | .running => (fetchDecode s).toOption
  | .waitingForKey _ | .halted _ => none

/-- No FX15 is executed and no `Reset` happens in the run of `es` from `s`. -/
def NoDelayWrite (es : List Event) (s : State) : Prop :=
  match es with
  | [] => True
  | e :: rest =>
    (∀ rom, e ≠ .reset rom) ∧ (e = .step → ∀ x, nextInstr s ≠ some (.ldDtVx x)) ∧
      ∀ t, applyEvent e s = .next t → NoDelayWrite rest t

/-- The pixel of column `x` and row `y` is covered by a set bit of the sprite of `n` rows at `base` that is
drawn at column `x0` and row `y0` (R162). -/
def CoveredBySprite (s : State) (base n x0 y0 : Nat) (x : Fin 64) (y : Fin 32) : Prop :=
  ∃ row col, row < n ∧ col < 8 ∧ spriteBit (s.byteAt (base + row)) col = true ∧
    (x0 + col) % 64 = x.val ∧ (y0 + row) % 32 = y.val

/-- The two states differ at most in what no program can see: `ST`, `REDRAW`, and stack entries that are not
live (R18, R30). -/
def AgreeForPrograms (s t : State) : Prop :=
  t.mem = s.mem ∧ t.v = s.v ∧ t.i = s.i ∧ t.pc = s.pc ∧ t.sp = s.sp ∧
    (∀ j : Fin 16, j.val < s.sp.val → t.stack[j] = s.stack[j]) ∧ t.dt = s.dt ∧ t.fb = s.fb ∧ t.key = s.key ∧
    t.status = s.status ∧ t.draws = s.draws ∧ t.font = s.font

/-- The parts an instruction may write, beside `PC`: the column "written by" of R10, with the status for FX0A and
for the instructions that can fault (R190), and the model's own `draws` for CXNN. -/
def writesParts : Instr → List Part
  | .cls => [.display, .redrawFlag]
  | .ret | .callNnn _ => [.stack, .status]
  | .jpNnn _ | .jpV0Nnn _ | .seVxNn _ _ | .sneVxNn _ _ | .seVxVy _ _ | .sneVxVy _ _ | .skpVx _ | .sknpVx _ => []
  | .ldVxNn _ _ | .addVxNn _ _ | .ldVxVy _ _ | .orVxVy _ _ | .andVxVy _ _ | .xorVxVy _ _ | .addVxVy _ _
  | .subVxVy _ _ | .shrVx _ _ | .subnVxVy _ _ | .shlVx _ _ | .ldVxDt _ => [.regs]
  | .rndVxNn _ _ => [.regs, .draws]
  | .ldINnn _ | .addIVx _ | .ldFVx _ => [.index]
  | .drwVxVyN _ _ _ => [.regs, .display, .redrawFlag, .status]
  | .ldVxK _ => [.status]
  | .ldDtVx _ => [.delayTimer]
  | .ldStVx _ => [.soundTimer]
  | .ldBVx _ | .ldMemVx _ => [.memory, .status]
  | .ldVxMem _ => [.regs, .status]

/-- The general registers an instruction may write: the column "writes" of R12. FX0A writes `V[X]` in the later
step that finds a key, not in its own. -/
def writesRegs : Instr → List Reg
  | .ldVxNn x _ | .addVxNn x _ | .ldVxVy x _ | .orVxVy x _ | .andVxVy x _ | .xorVxVy x _ | .rndVxNn x _
  | .ldVxDt x => [x]
  | .addVxVy x _ | .subVxVy x _ | .shrVx x _ | .subnVxVy x _ | .shlVx x _ => [regF, x]
  | .drwVxVyN _ _ _ => [regF]
  | .ldVxMem x => (List.finRange 16).filter (· ≤ x)
  | .cls | .ret | .jpNnn _ | .callNnn _ | .seVxNn _ _ | .sneVxNn _ _ | .seVxVy _ _ | .sneVxVy _ _ | .ldINnn _
  | .jpV0Nnn _ | .skpVx _ | .sknpVx _ | .ldVxK _ | .ldDtVx _ | .ldStVx _ | .addIVx _ | .ldFVx _ | .ldBVx _
  | .ldMemVx _ => []

end Sys2Proof.Machine
end

