-- ==== Sys2Proof/Certificates/Slice0/Obligations.lean ====
section
/-! DEFINITION. The statements for the provers, from the numbered rules of spec/. `SameBut`, `RegsSameBut`,
`BytesSameBut` and `PcMoves` are the frames of Safety.lean. Statements about `Config.rnd` hold whatever its
values are. -/

open Sys2Proof Sys2Proof.Machine

/-! ## Reset and program load -/

/-- R31, with an empty ROM. `REDRAW`, `STATUS` and the stack entries rest on decision D14 of
92_eei_decisions.md. Nothing is said of `KEY`, of the bytes of the font or of the model's own `draws`. -/
def Obligations.ResetStateHoldsTheStatedValues : Prop :=
  (∀ a : Fin 80, State.reset.byteAt a.val = State.reset.font[a]) ∧
    (∀ a, 80 ≤ a → a ≤ 0xFFF → State.reset.byteAt a = 0) ∧
    (∀ r, State.reset.getV r = 0) ∧ State.reset.i = 0 ∧ State.reset.pc = 0x200 ∧
    (∀ j : Fin 16, State.reset.stack[j] = 0) ∧ State.reset.sp = 0 ∧
    State.reset.dt = 0 ∧ State.reset.st = 0 ∧ (∀ x y, State.reset.pixel x y = false) ∧
    State.reset.redraw = false ∧ State.reset.status = .running

/-- R220 and R221: `Reset(ROM)` from any state. A ROM of at most 3584 bytes is copied to 0x200 and everything
but `KEY` is initialised (decision D14); a longer one is a load error (decision D15). The font stays the machine's
parameter (R32). -/
def Obligations.RomLoadReinitialisesEverythingButTheKeys : Prop :=
  ∀ (s : State) (rom : List Byte),
    (rom.length ≤ 3584 → ∃ t, applyEvent (.reset rom) s = .next t ∧
      (∀ j (h : j < rom.length), t.byteAt (0x200 + j) = rom[j]) ∧
      (∀ a : Fin 80, t.byteAt a.val = s.font[a]) ∧
      (∀ a, 80 ≤ a → a ≤ 0xFFF → ¬(0x200 ≤ a ∧ a < 0x200 + rom.length) → t.byteAt a = 0) ∧
      (∀ r, t.getV r = 0) ∧ t.i = 0 ∧ t.pc = 0x200 ∧ (∀ j : Fin 16, t.stack[j] = 0) ∧ t.sp = 0 ∧
      t.dt = 0 ∧ t.st = 0 ∧ (∀ x y, t.pixel x y = false) ∧ t.redraw = false ∧ t.status = .running ∧
      t.key = s.key ∧ t.font = s.font) ∧
    (3584 < rom.length → applyEvent (.reset rom) s = .fault .romLoadError)

/-! ## The memory bus -/

/-- R42 and R43: the guard, the read and the write of one cell. -/
def Obligations.MemoryBusGuardsAndWritesOneCell : Prop :=
  ∀ (s : State) (a : Nat) (b : Byte),
    (0xFFF < a → memRead s a = .error .outOfRangeAccess ∧ memWrite s a b = .error .outOfRangeAccess) ∧
    (a ≤ 0xFFF → memRead s a = .ok (s.byteAt a) ∧
      ∃ t, memWrite s a b = .ok t ∧ t.byteAt a = b ∧ (∀ c, c ≠ a → t.byteAt c = s.byteAt c) ∧
        t.pc = s.pc ∧ SameBut [.memory] s t)

/-- Two memories in the canonical form that read the same at every address are the same data. The canonical
form is the model's own. -/
def Obligations.CanonicalMemoriesWithEqualReadsAreEqual : Prop :=
  ∀ (font : Font) (m m' : Memory), m.wf font → m'.wf font → (∀ a, m.read font a = m'.read font a) → m = m'

/-! ## Encoding -/

/-- Every well-formed instruction comes back from its two bytes, whatever follows them (R45, R62, R64). -/
def Obligations.DecodeOfEncodeIsTheInstruction : Prop :=
  ∀ (i : Instr) (rest : List Byte), WellFormed i = true → decode (encodeBytes i ++ rest) = .ok (i, rest)

/-- Every word the decoder accepts is the word of the instruction it gives, and that instruction is well formed:
no bit of a word is dropped, the unused field of the shifts included (R64, R67). -/
def Obligations.EncodeOfDecodeIsTheWord : Prop :=
  ∀ (op : Word) (i : Instr), decodeOp op = some i → encode i = op ∧ WellFormed i = true

/-- A word has the fixed bits of a row of the opcode table exactly when the decoder gives an instruction of that
row (R62, R64, R66); so no two rows overlap. -/
def Obligations.DecoderFollowsTheOpcodeTable : Prop :=
  ∀ (op : Word) (i : Instr),
    (∀ f ∈ i.fixedFields, f.holds op) ↔ ∃ j, decodeOp op = some j ∧ j.fixedFields = i.fixedFields

/-- The table of R68, family by family. That every fixed nibble is compared is decision D11. -/
def Obligations.UnknownWordsAreExactlyThoseListed : Prop :=
  ∀ op : Word, decodeOp op = none ↔
    (op.toNat / 4096 = 0x0 ∧ op.toNat ≠ 0x00E0 ∧ op.toNat ≠ 0x00EE) ∨
    (op.toNat / 4096 = 0x5 ∧ op.toNat % 16 ≠ 0) ∨
    (op.toNat / 4096 = 0x8 ∧ op.toNat % 16 ∈ [0x8, 0x9, 0xA, 0xB, 0xC, 0xD, 0xF]) ∨
    (op.toNat / 4096 = 0x9 ∧ op.toNat % 16 ≠ 0) ∨
    (op.toNat / 4096 = 0xE ∧ op.toNat % 256 ∉ [0x9E, 0xA1]) ∨
    (op.toNat / 4096 = 0xF ∧ op.toNat % 256 ∉ [0x07, 0x0A, 0x15, 0x18, 0x1E, 0x29, 0x33, 0x55, 0x65])

/-- Words written out from the layouts of R62, one or two per family. That 0x0123 and 0x5121 are rejected rests on
decision D11 (every fixed nibble is compared; notes/assumptions/16.md). -/
def Obligations.WrittenOutWordsDecode : Prop :=
  decode [0x00, 0xE0] = .ok (.cls, []) ∧ decode [0x00, 0xEE] = .ok (.ret, []) ∧
    decode [0x1A, 0xBC] = .ok (.jpNnn 0xABC, []) ∧ decode [0x3A, 0x42] = .ok (.seVxNn 10 0x42, []) ∧
    decode [0x5A, 0xB0] = .ok (.seVxVy 10 11, []) ∧ decode [0x6A, 0x11] = .ok (.ldVxNn 10 0x11, []) ∧
    decode [0x81, 0x27] = .ok (.subnVxVy 1 2, []) ∧ decode [0x8A, 0xBE] = .ok (.shlVx 10 11, []) ∧
    decode [0xB3, 0x00] = .ok (.jpV0Nnn 0x300, []) ∧ decode [0xCA, 0x0F] = .ok (.rndVxNn 10 0x0F, []) ∧
    decode [0xD0, 0x1F] = .ok (.drwVxVyN 0 1 15, []) ∧ decode [0xE5, 0xA1] = .ok (.sknpVx 5, []) ∧
    decode [0xF3, 0x0A] = .ok (.ldVxK 3, []) ∧ decode [0xF2, 0x65] = .ok (.ldVxMem 2, []) ∧
    decode [0x01, 0x23] = .error (.unknownOpcode 0x0123) ∧ decode [0x51, 0x21] = .error (.unknownOpcode 0x5121)

/-! ## The `Step` event -/

/-- R45: the byte at `PC` is the high byte of the opcode. -/
def Obligations.FetchReadsTheHighByteFirst : Prop :=
  ∀ s : State, s.pc.toNat ≤ 0xFFE →
    ∃ op, fetch s = .ok op ∧ op.toNat = (s.byteAt s.pc.toNat).toNat * 256 + (s.byteAt (s.pc.toNat + 1)).toNat

/-- R83 to R85: in `Running`, when the two bytes at `PC` decode to `i`, the step is `exec i` at that very state;
the step adds nothing around it. -/
def Obligations.StepRunsTheDecodedInstruction : Prop :=
  ∀ (s : State) (i : Instr), s.status = .running → s.pc.toNat ≤ 0xFFE →
    decode [s.byteAt s.pc.toNat, s.byteAt (s.pc.toNat + 1)] = .ok (i, []) → step s = exec i s

/-- R88: in every state a step gives a state; it never faults and never refuses. -/
def Obligations.StepAlwaysAnswersAState : Prop :=
  ∀ s : State, ∃ t, step s = .next t

/-- R81: a step of a halted machine changes nothing. -/
def Obligations.HaltedStepChangesNothing : Prop :=
  ∀ (s : State) (k : HaltReason), s.status = .halted k → step s = .next s

/-- R198 and R223: whatever event but `Reset` happens to a halted machine, it stays halted for the same reason,
with only the elements that the other host events own changed. That those events act while halted is decision
D19. -/
def Obligations.OnlyResetLeavesTheHaltedState : Prop :=
  ∀ (e : Event) (s t : State) (k : HaltReason), s.status = .halted k → applyEvent e s = .next t →
    (∀ rom, e ≠ .reset rom) →
    t.status = .halted k ∧ t.pc = s.pc ∧ SameBut [.delayTimer, .soundTimer, .keys, .redrawFlag] s t

/-- R82: the poll. That any key now down ends the wait is decision D10. -/
def Obligations.WaitingStepTakesTheLowestKeyDown : Prop :=
  ∀ (s : State) (x : Reg), s.status = .waitingForKey x →
    ((∀ k : Key, s.key[k] = false) → step s = .next s) ∧
    (∀ k : Key, s.key[k] = true → (∀ j : Key, j < k → s.key[j] = false) →
      ∃ t, step s = .next t ∧ (t.getV x).toNat = k.val ∧ PcMoves 2 s t ∧ t.status = .running ∧
        RegsSameBut [x] s t ∧ SameBut [.regs, .status] s t)

/-- R80: the table of the transitions of `STATUS`, with the row for `Reset`. -/
def Obligations.StatusMovesOnlyAsTheTableSays : Prop :=
  (∀ s t : State, step s = .next t →
    (∀ k, s.status = .halted k → t.status = .halted k) ∧
    (∀ x, s.status = .waitingForKey x →
      (t.status = .waitingForKey x ∧ ∀ k : Key, s.key[k] = false) ∨
        (t.status = .running ∧ ∃ k : Key, s.key[k] = true)) ∧
    (s.status = .running →
      (t.status = .running ∧ ∃ i, nextInstr s = some i ∧ ∀ x, i ≠ .ldVxK x) ∨
        (∃ x, t.status = .waitingForKey x ∧ nextInstr s = some (.ldVxK x)) ∨ ∃ k, t.status = .halted k)) ∧
  ∀ (s t : State) (rom : List Byte), applyEvent (.reset rom) s = .next t → t.status = .running

/-- R191: a step that faults changes the status and nothing else, `PC` included. That a fault has no partial
effect is decision D2. -/
def Obligations.FaultingStepChangesOnlyTheStatus : Prop :=
  ∀ (s t : State) (k : HaltReason), s.status = .running → step s = .next t → t.status = .halted k →
    t = s.setStatus (.halted k)

/-- R190 and R196: a step of a running machine ends in `Halted(k)` exactly in the cases listed, in the order
fetch, decode, the one guard of the instruction. -/
def Obligations.FaultsHappenExactlyWhereListed : Prop :=
  ∀ (s t : State) (k : HaltReason), s.status = .running → step s = .next t →
    (t.status = .halted k ↔
      (0xFFF ≤ s.pc.toNat ∧ k = .outOfRangeAccess) ∨
      (s.pc.toNat ≤ 0xFFE ∧ decodeOp (opcodeOf (s.byteAt s.pc.toNat) (s.byteAt (s.pc.toNat + 1))) = none ∧
        k = .unknownOpcode) ∨
      (∃ nnn, nextInstr s = some (.callNnn nnn) ∧ s.sp.val = 16 ∧ k = .stackOverflow) ∨
      (nextInstr s = some .ret ∧ s.sp.val = 0 ∧ k = .stackUnderflow) ∨
      (∃ x y n, nextInstr s = some (.drwVxVyN x y n) ∧ 0 < n ∧ 0xFFF < s.i.toNat + n - 1 ∧
        k = .outOfRangeAccess) ∨
      (∃ x, nextInstr s = some (.ldBVx x) ∧ 0xFFF < s.i.toNat + 2 ∧ k = .outOfRangeAccess) ∨
      (∃ x, (nextInstr s = some (.ldMemVx x) ∨ nextInstr s = some (.ldVxMem x)) ∧
        0xFFF < s.i.toNat + x.val ∧ k = .outOfRangeAccess))

/-- R83, R84, R195: the two faults before an instruction executes. That nothing else changes is decision D2. -/
def Obligations.FetchAndDecodeFaultsHalt : Prop :=
  ∀ s : State, s.status = .running →
    (0xFFF ≤ s.pc.toNat → ∃ t, step s = .next t ∧ t.status = .halted .outOfRangeAccess ∧ t.pc = s.pc ∧
      SameBut [.status] s t) ∧
    (s.pc.toNat ≤ 0xFFE → decodeOp (opcodeOf (s.byteAt s.pc.toNat) (s.byteAt (s.pc.toNat + 1))) = none →
      ∃ t, step s = .next t ∧ t.status = .halted .unknownOpcode ∧ t.pc = s.pc ∧ SameBut [.status] s t)

/-! ## What an instruction may write -/

/-- R10, column "written by": every part that the instruction is not listed for is unchanged, `KEY` and the font
always. That an instruction writes only what its row names (`I` stays after FX33, FX55, FX65 and DXYN) is decision D5
(notes/assumptions/10.md); that a faulting one writes only the status is D2 (notes/assumptions/7.md). -/
def Obligations.InstructionsWriteOnlyTheirParts : Prop :=
  ∀ (i : Instr) (s t : State), exec i s = .next t → SameBut (writesParts i) s t

/-- R12, column "writes": a general register changes only if the instruction is listed for it; so `V[15]` changes
only by the flag writers of R13 or as an ordinary destination. That 7XNN, 8XY1, 8XY2, 8XY3 and FX1E leave `V[15]`
alone is decision D5 (notes/assumptions/10.md); that a faulting instruction writes no register is D2
(notes/assumptions/7.md). -/
def Obligations.InstructionsWriteOnlyTheirRegisters : Prop :=
  ∀ (i : Instr) (s t : State), exec i s = .next t → RegsSameBut (writesRegs i) s t

/-! ## Control flow -/

/-- R101. -/
def Obligations.JumpSetsThePc : Prop :=
  ∀ (s : State) (nnn : Addr12), ∃ t, exec (.jpNnn nnn) s = .next t ∧ t.pc.toNat = nnn.toNat ∧ SameBut [] s t

/-- R102: the address of the next instruction is pushed. Where it stands in the stack is decision D20. -/
def Obligations.CallPushesTheNextAddress : Prop :=
  ∀ (s : State) (nnn : Addr12) (j : Fin 16), s.sp.val = j.val →
    ∃ t, exec (.callNnn nnn) s = .next t ∧ t.pc.toNat = nnn.toNat ∧ t.sp.val = s.sp.val + 1 ∧
      t.stack[j].toNat = (s.pc.toNat + 2) % 65536 ∧ (∀ l : Fin 16, l ≠ j → t.stack[l] = s.stack[l]) ∧
      SameBut [.stack] s t

/-- R102, R193: the call that finds the stack full. That nothing else changes is decision D2. -/
def Obligations.CallOnAFullStackOverflows : Prop :=
  ∀ (s : State) (nnn : Addr12), s.sp.val = 16 →
    ∃ t, exec (.callNnn nnn) s = .next t ∧ t.status = .halted .stackOverflow ∧ t.pc = s.pc ∧ SameBut [.status] s t

/-- R100: the entry at the new `SP` is the new `PC`, with no further advance; an empty stack halts. Where the entry
stands, and that it is kept, is decision D20 (notes/assumptions/20.md); that the underflow changes nothing but the
status is decision D2 (notes/assumptions/7.md). -/
def Obligations.ReturnPopsTheLatestEntry : Prop :=
  (∀ (s : State) (j : Fin 16), s.sp.val = j.val + 1 →
    ∃ t, exec .ret s = .next t ∧ t.pc = s.stack[j] ∧ t.sp.val = j.val ∧ t.stack = s.stack ∧ SameBut [.stack] s t) ∧
  ∀ s : State, s.sp.val = 0 →
    ∃ t, exec .ret s = .next t ∧ t.status = .halted .stackUnderflow ∧ t.pc = s.pc ∧ SameBut [.status] s t

/-- The document's round trip (95_test_vectors.md E4): a call, then any instructions that leave the stack as the
call left it, then a return, end at the address after the call. -/
def Obligations.CallThenReturnComesBack : Prop :=
  ∀ (s : State) (nnn : Addr12), s.sp.val < 16 →
    ∃ t, exec (.callNnn nnn) s = .next t ∧
      ∀ u : State, u.stack = t.stack → u.sp = t.sp →
        ∃ w, exec .ret u = .next w ∧ PcMoves 2 s w ∧ w.sp = s.sp

/-- R103 to R106. -/
def Obligations.RegisterSkipsCompare : Prop :=
  ∀ (s : State) (x y : Reg) (nn : Byte),
    (∃ t, exec (.seVxNn x nn) s = .next t ∧ PcMoves (if s.getV x = nn then 4 else 2) s t ∧ SameBut [] s t) ∧
    (∃ t, exec (.sneVxNn x nn) s = .next t ∧ PcMoves (if s.getV x ≠ nn then 4 else 2) s t ∧ SameBut [] s t) ∧
    (∃ t, exec (.seVxVy x y) s = .next t ∧ PcMoves (if s.getV x = s.getV y then 4 else 2) s t ∧ SameBut [] s t) ∧
    (∃ t, exec (.sneVxVy x y) s = .next t ∧ PcMoves (if s.getV x ≠ s.getV y then 4 else 2) s t ∧ SameBut [] s t)

/-- R107: always `V[0]`, and the sum is kept whole (decision D21). -/
def Obligations.IndexedJumpAddsV0 : Prop :=
  ∀ (s : State) (nnn : Addr12),
    ∃ t, exec (.jpV0Nnn nnn) s = .next t ∧ t.pc.toNat = nnn.toNat + (s.getV 0).toNat ∧ SameBut [] s t

/-! ## Registers and arithmetic -/

/-- R120 and R122. -/
def Obligations.LoadImmediateAndCopy : Prop :=
  ∀ (s : State) (x y : Reg) (nn : Byte),
    (∃ t, exec (.ldVxNn x nn) s = .next t ∧ t.getV x = nn ∧ PcMoves 2 s t ∧ RegsSameBut [x] s t ∧
      SameBut [.regs] s t) ∧
    (∃ t, exec (.ldVxVy x y) s = .next t ∧ t.getV x = s.getV y ∧ PcMoves 2 s t ∧ RegsSameBut [x] s t ∧
      SameBut [.regs] s t)

/-- R121: the sum wraps and the carry is dropped; that `V[15]` is not written is decision D5. -/
def Obligations.AddImmediateWrapsWithoutFlag : Prop :=
  ∀ (s : State) (x : Reg) (nn : Byte),
    ∃ t, exec (.addVxNn x nn) s = .next t ∧ (t.getV x).toNat = ((s.getV x).toNat + nn.toNat) % 256 ∧
      PcMoves 2 s t ∧ RegsSameBut [x] s t ∧ SameBut [.regs] s t

/-- R123, R124, R125, bit by bit; that `V[15]` is not written is decision D5. -/
def Obligations.LogicWorksBitByBit : Prop :=
  ∀ (s : State) (x y : Reg),
    (∃ t, exec (.orVxVy x y) s = .next t ∧
      (∀ k, (t.getV x).getLsbD k = ((s.getV x).getLsbD k || (s.getV y).getLsbD k)) ∧
      PcMoves 2 s t ∧ RegsSameBut [x] s t ∧ SameBut [.regs] s t) ∧
    (∃ t, exec (.andVxVy x y) s = .next t ∧
      (∀ k, (t.getV x).getLsbD k = ((s.getV x).getLsbD k && (s.getV y).getLsbD k)) ∧
      PcMoves 2 s t ∧ RegsSameBut [x] s t ∧ SameBut [.regs] s t) ∧
    (∃ t, exec (.xorVxVy x y) s = .next t ∧
      (∀ k, (t.getV x).getLsbD k = ((s.getV x).getLsbD k ^^ (s.getV y).getLsbD k)) ∧
      PcMoves 2 s t ∧ RegsSameBut [x] s t ∧ SameBut [.regs] s t)

/-- R126. With `x = 15` the sum stands in `V[15]` and the carry is lost (decision D3); with `y = 15` the old
flag is the addend. -/
def Obligations.AddRegistersSetsTheCarry : Prop :=
  ∀ (s : State) (x y : Reg),
    ∃ t, exec (.addVxVy x y) s = .next t ∧
      (t.getV x).toNat = ((s.getV x).toNat + (s.getV y).toNat) % 256 ∧
      (x ≠ regF → (t.getV regF).toNat = if (s.getV x).toNat + (s.getV y).toNat > 255 then 1 else 0) ∧
      PcMoves 2 s t ∧ RegsSameBut [regF, x] s t ∧ SameBut [.regs] s t

/-- R127 and R129: the difference mod 256 (the least non-negative residue, R7), the flag 1 when no borrow. With
`x = 15` the difference stands (decision D3). -/
def Obligations.SubtractionsSetNoBorrow : Prop :=
  ∀ (s : State) (x y : Reg),
    (∃ t, exec (.subVxVy x y) s = .next t ∧
      ((t.getV x).toNat : Int) = (((s.getV x).toNat : Int) - (s.getV y).toNat) % 256 ∧
      (x ≠ regF → (t.getV regF).toNat = if (s.getV x).toNat ≥ (s.getV y).toNat then 1 else 0) ∧
      PcMoves 2 s t ∧ RegsSameBut [regF, x] s t ∧ SameBut [.regs] s t) ∧
    (∃ t, exec (.subnVxVy x y) s = .next t ∧
      ((t.getV x).toNat : Int) = (((s.getV y).toNat : Int) - (s.getV x).toNat) % 256 ∧
      (x ≠ regF → (t.getV regF).toNat = if (s.getV y).toNat ≥ (s.getV x).toNat then 1 else 0) ∧
      PcMoves 2 s t ∧ RegsSameBut [regF, x] s t ∧ SameBut [.regs] s t)

/-- R128 and R130: shifts of `V[X]` by one bit, whatever `y` is (R67). With `x = 15` the result stands (decision
D3). -/
def Obligations.ShiftsMoveOneBitIntoTheFlag : Prop :=
  ∀ (s : State) (x y : Reg),
    (∃ t, exec (.shrVx x y) s = .next t ∧ (t.getV x).toNat = (s.getV x).toNat / 2 ∧
      (x ≠ regF → (t.getV regF).toNat = (s.getV x).toNat % 2) ∧
      PcMoves 2 s t ∧ RegsSameBut [regF, x] s t ∧ SameBut [.regs] s t) ∧
    (∃ t, exec (.shlVx x y) s = .next t ∧ (t.getV x).toNat = (s.getV x).toNat * 2 % 256 ∧
      (x ≠ regF → (t.getV regF).toNat = (s.getV x).toNat / 128) ∧
      PcMoves 2 s t ∧ RegsSameBut [regF, x] s t ∧ SameBut [.regs] s t)

/-- R131: the drawn byte under the mask. The byte is a free value (`Config.rnd`, decision D17), and the next
execution draws another one. -/
def Obligations.RandomByteIsMasked : Prop :=
  ∀ (s : State) (x : Reg) (nn : Byte),
    ∃ t, exec (.rndVxNn x nn) s = .next t ∧ t.getV x = nn &&& Config.rnd s.draws ∧ t.getV x &&& ~~~nn = 0 ∧
      t.draws = s.draws + 1 ∧ PcMoves 2 s t ∧ RegsSameBut [x] s t ∧ SameBut [.regs, .draws] s t

/-! ## Index register and memory -/

/-- R140. -/
def Obligations.LoadIndexImmediate : Prop :=
  ∀ (s : State) (nnn : Addr12),
    ∃ t, exec (.ldINnn nnn) s = .next t ∧ t.i.toNat = nnn.toNat ∧ PcMoves 2 s t ∧ SameBut [.index] s t

/-- R141 and R142: the 16-bit sum without flag or fault (decisions D4, D5), and five times the whole byte
(decision D8). -/
def Obligations.IndexAddAndGlyphAddress : Prop :=
  ∀ (s : State) (x : Reg),
    (∃ t, exec (.addIVx x) s = .next t ∧ t.i.toNat = (s.i.toNat + (s.getV x).toNat) % 65536 ∧
      PcMoves 2 s t ∧ SameBut [.index] s t) ∧
    (∃ t, exec (.ldFVx x) s = .next t ∧ t.i.toNat = (s.getV x).toNat * 5 ∧ PcMoves 2 s t ∧ SameBut [.index] s t)

/-- R143: the digits at `I`, `I + 1`, `I + 2`; every other byte stays. That `I` stays is decision D5. -/
def Obligations.BcdStoresThreeDigits : Prop :=
  ∀ (s : State) (x : Reg), s.base + 2 ≤ 0xFFF →
    ∃ t, exec (.ldBVx x) s = .next t ∧
      (t.byteAt s.base).toNat = (s.getV x).toNat / 100 ∧
      (t.byteAt (s.base + 1)).toNat = (s.getV x).toNat / 10 % 10 ∧
      (t.byteAt (s.base + 2)).toNat = (s.getV x).toNat % 10 ∧
      BytesSameBut s.base 3 s t ∧ PcMoves 2 s t ∧ SameBut [.memory] s t

/-- R144: `V[j]` at `I + j` for `j` up to and with `X`; every other byte stays. That `I` stays is decision D5. -/
def Obligations.StoreRegistersFillsTheRange : Prop :=
  ∀ (s : State) (x : Reg), s.base + x.val ≤ 0xFFF →
    ∃ t, exec (.ldMemVx x) s = .next t ∧ (∀ j : Reg, j ≤ x → t.byteAt (s.base + j.val) = s.getV j) ∧
      BytesSameBut s.base (x.val + 1) s t ∧ PcMoves 2 s t ∧ SameBut [.memory] s t

/-- R145: `V[j]` from `I + j` for `j` up to and with `X`; the registers above stay. That `I` stays is decision
D5. -/
def Obligations.LoadRegistersReadsTheRange : Prop :=
  ∀ (s : State) (x : Reg), s.base + x.val ≤ 0xFFF →
    ∃ t, exec (.ldVxMem x) s = .next t ∧ (∀ j : Reg, j ≤ x → t.getV j = s.byteAt (s.base + j.val)) ∧
      (∀ j : Reg, x < j → t.getV j = s.getV j) ∧ PcMoves 2 s t ∧ SameBut [.regs] s t

/-- R44, R161, R143 to R145: where the range leaves 0x000 to 0xFFF, the instruction halts and no byte, register
or pixel changes (decision D2). -/
def Obligations.RangeFaultsHaveNoEffect : Prop :=
  ∀ (s : State) (x y : Reg) (n : Nat),
    (0 < n → 0xFFF < s.base + n - 1 → ∃ t, exec (.drwVxVyN x y n) s = .next t ∧
      t.status = .halted .outOfRangeAccess ∧ t.pc = s.pc ∧ SameBut [.status] s t) ∧
    (0xFFF < s.base + 2 → ∃ t, exec (.ldBVx x) s = .next t ∧
      t.status = .halted .outOfRangeAccess ∧ t.pc = s.pc ∧ SameBut [.status] s t) ∧
    (0xFFF < s.base + x.val →
      (∃ t, exec (.ldMemVx x) s = .next t ∧
        t.status = .halted .outOfRangeAccess ∧ t.pc = s.pc ∧ SameBut [.status] s t) ∧
      ∃ t, exec (.ldVxMem x) s = .next t ∧
        t.status = .halted .outOfRangeAccess ∧ t.pc = s.pc ∧ SameBut [.status] s t)

/-- R54, R46: registers stored over the next instruction are the opcode the next step fetches, `V[0]` its high
byte. -/
def Obligations.StoreReachesTheNextFetch : Prop :=
  ∀ (s : State) (x : Reg), 1 ≤ x.val → s.base = s.pc.toNat + 2 → s.base + x.val ≤ 0xFFF →
    ∃ t op, exec (.ldMemVx x) s = .next t ∧ fetch t = .ok op ∧
      op.toNat = (s.getV 0).toNat * 256 + (s.getV 1).toNat

/-! ## Display -/

/-- R160. That `REDRAW` is set even when the grid was clear is decision D7. -/
def Obligations.ClearScreenClearsEveryPixel : Prop :=
  ∀ s : State, ∃ t, exec .cls s = .next t ∧ (∀ px py, t.pixel px py = false) ∧ t.redraw = true ∧
    PcMoves 2 s t ∧ SameBut [.display, .redrawFlag] s t

/-- R161, R162: a pixel covered by a set sprite bit toggles and every other pixel stays. That each pixel wraps on
its own is decision D6; that the position is read from the old registers is decision D3. -/
def Obligations.DrawTogglesExactlyTheCoveredPixels : Prop :=
  ∀ (s : State) (x y : Reg) (n : Nat), n ≤ 15 → (n = 0 ∨ s.base + n - 1 ≤ 0xFFF) →
    ∃ t, exec (.drwVxVyN x y n) s = .next t ∧
      ∀ px py, t.pixel px py = true ↔
        ¬(s.pixel px py = true ↔ CoveredBySprite s s.base n (s.getV x).toNat (s.getV y).toNat px py)

/-- R161: `V[15]` is 1 exactly when a covered pixel was set, else 0; `REDRAW` is set (decision D7); nothing else
changes but the display. -/
def Obligations.DrawReportsTheCollision : Prop :=
  ∀ (s : State) (x y : Reg) (n : Nat), n ≤ 15 → (n = 0 ∨ s.base + n - 1 ≤ 0xFFF) →
    ∃ t, exec (.drwVxVyN x y n) s = .next t ∧
      (t.getV regF = 0 ∨ t.getV regF = 1) ∧
      (t.getV regF = 1 ↔ ∃ px py, s.pixel px py = true ∧
        CoveredBySprite s s.base n (s.getV x).toNat (s.getV y).toNat px py) ∧
      t.redraw = true ∧ RegsSameBut [regF] s t ∧ PcMoves 2 s t ∧
      SameBut [.regs, .display, .redrawFlag] s t

/-- R161: the same sprite drawn twice at the same place restores the screen. The second draw reports a collision
exactly if a covered pixel was unset before the first (notes/assumptions/6.md). Neither coordinate is taken from
`V[15]`, which the first draw writes. Per-pixel wrap is decision D6. -/
def Obligations.DrawingTwiceRestoresTheScreen : Prop :=
  ∀ (s : State) (x y : Reg) (n : Nat), x ≠ regF → y ≠ regF → n ≤ 15 → (n = 0 ∨ s.base + n - 1 ≤ 0xFFF) →
    ∃ t u, exec (.drwVxVyN x y n) s = .next t ∧ exec (.drwVxVyN x y n) t = .next u ∧
      (∀ px py, u.pixel px py = s.pixel px py) ∧ (∀ a, u.byteAt a = s.byteAt a) ∧
      (u.getV regF = 1 ↔ ∃ px py, s.pixel px py = false ∧
        CoveredBySprite s s.base n (s.getV x).toNat (s.getV y).toNat px py)

/-! ## Keypad and timers -/

/-- R170, R171: the key is selected by the low nibble (R176, decision D9). -/
def Obligations.KeySkipsReadTheSelectedKey : Prop :=
  ∀ (s : State) (x : Reg) (k : Key), k.val = (s.getV x).toNat % 16 →
    (∃ t, exec (.skpVx x) s = .next t ∧ PcMoves (if s.key[k] = true then 4 else 2) s t ∧ SameBut [] s t) ∧
    (∃ t, exec (.sknpVx x) s = .next t ∧ PcMoves (if s.key[k] = false then 4 else 2) s t ∧ SameBut [] s t)

/-- R172: FX0A enters the wait and does nothing else; that it does not look at `KEY` is decision D10. -/
def Obligations.WaitForKeyEntersTheWait : Prop :=
  ∀ (s : State) (x : Reg),
    ∃ t, exec (.ldVxK x) s = .next t ∧ t.status = .waitingForKey x ∧ t.pc = s.pc ∧ SameBut [.status] s t

/-- R173, R174, R175: one byte moves, and FX18 emits no `ToneEnd`, whatever it overwrites. -/
def Obligations.TimerInstructionsMoveOneByte : Prop :=
  ∀ (s : State) (x : Reg),
    (∃ t, exec (.ldVxDt x) s = .next t ∧ t.getV x = s.dt ∧ PcMoves 2 s t ∧ RegsSameBut [x] s t ∧
      SameBut [.regs] s t) ∧
    (∃ t, exec (.ldDtVx x) s = .next t ∧ t.dt = s.getV x ∧ PcMoves 2 s t ∧ SameBut [.delayTimer] s t) ∧
    (∃ t, exec (.ldStVx x) s = .next t ∧ t.st = s.getV x ∧ PcMoves 2 s t ∧ SameBut [.soundTimer] s t) ∧
    toneEnd .step s = false

/-- R203, R204: both timers stop at 0; `ToneEnd` goes with the `Tick` that takes `ST` from 1 to 0 and with no
other event. That `Tick` acts in every status is decision D19. -/
def Obligations.TickCountsDownAndEndsTheTone : Prop :=
  ∀ s : State,
    (∃ t, applyEvent .tick s = .next t ∧ t.dt.toNat = s.dt.toNat - 1 ∧ t.st.toNat = s.st.toNat - 1 ∧
      t.pc = s.pc ∧ SameBut [.delayTimer, .soundTimer] s t ∧
      (toneEnd .tick s = true ↔ s.st.toNat = 1 ∧ t.st.toNat = 0)) ∧
    ∀ e, e ≠ .tick → toneEnd e s = false

/-- R206, R207. That both act in every status is decision D19 (notes/assumptions/19.md). -/
def Obligations.KeyWriteAndRedrawClearOwnOneElement : Prop :=
  ∀ (s : State) (k : Key) (b : Bool),
    (∃ t, applyEvent (.keyWrite k b) s = .next t ∧ t.key[k] = b ∧ (∀ j : Key, j ≠ k → t.key[j] = s.key[j]) ∧
      t.pc = s.pc ∧ SameBut [.keys] s t) ∧
    (∃ t, applyEvent .redrawClear s = .next t ∧ t.redraw = false ∧ t.pc = s.pc ∧ SameBut [.redrawFlag] s t)

/-- R87: a step changes a timer only by FX15 or FX18; over a run without FX15 and without `Reset`, the delay timer
goes down by exactly one per `Tick` and stops at 0, however many steps fall between. That `Tick` acts in every status
is decision D19. -/
def Obligations.TimersFollowTicksNotSteps : Prop :=
  (∀ s t : State, step s = .next t →
    (t.dt ≠ s.dt → ∃ x, nextInstr s = some (.ldDtVx x)) ∧ (t.st ≠ s.st → ∃ x, nextInstr s = some (.ldStVx x))) ∧
  ∀ (es : List Event) (s t : State), NoDelayWrite es s → runEvents es s = .next t →
    t.dt.toNat = s.dt.toNat - es.count .tick

/-! ## Invariants -/

/-- Every step keeps memory in the canonical form. The form is the model's own; that no cell above 0x0FFF
is ever written is R41, R43. -/
def Obligations.StepKeepsMemoryCanonical : Prop :=
  ∀ s t : State, MemoryCanonical s → step s = .next t → MemoryCanonical t

/-- R17: every step keeps `PC` at most 0x10FE, the stack entries at most 0x1000, and a waiting machine's `PC`
fetchable. The spec derives the bound from its other rules. -/
def Obligations.StepKeepsThePcBounded : Prop :=
  ∀ s t : State, PcBounded s → step s = .next t → PcBounded t

/-- Both invariants hold at reset. -/
def Obligations.ResetMeetsTheInvariants : Prop := MemoryCanonical State.reset ∧ PcBounded State.reset

/-- Every run of events, `Reset` with any ROM and the host's moves among them, keeps both invariants. -/
def Obligations.RunsKeepTheInvariants : Prop :=
  ∀ (es : List Event) (s t : State), MemoryCanonical s → PcBounded s → runEvents es s = .next t →
    MemoryCanonical t ∧ PcBounded t

/-- R18, R30: what a program cannot see (`ST`, `REDRAW`, stack entries that are not live) never steers it.
Which entries are live is decision D20. -/
def Obligations.UnseenStateNeverSteersAProgram : Prop :=
  ∀ s s' t t' : State, AgreeForPrograms s s' → step s = .next t → step s' = .next t' → AgreeForPrograms t t'
end

