-- ==== Sys2Proof/Laws/Decode.lean ====
section
/-! SUPPORT. The fields of a word as numbers, the bytes of a word, and the fields of an encoded word. -/

namespace Sys2Proof

theorem opcodeOf_toNat (hi lo : Byte) : (opcodeOf hi lo).toNat = hi.toNat * 256 + lo.toNat := by
  have := lo.isLt
  rw [opcodeOf, BitVec.toNat_append, ← Nat.shiftLeft_add_eq_or_of_lt (by omega), Nat.shiftLeft_eq]

@[simp] theorem nibble_val (op : Word) (lo : Nat) : (nibble op lo).val = op.toNat / 2 ^ lo % 16 := rfl
theorem fieldF_eq (op : Word) : fieldF op = op.toNat / 4096 % 16 := rfl
theorem fieldX_val (op : Word) : (fieldX op).val = op.toNat / 256 % 16 := rfl
theorem fieldY_val (op : Word) : (fieldY op).val = op.toNat / 16 % 16 := rfl
theorem fieldN_eq (op : Word) : fieldN op = op.toNat % 16 := by simp [fieldN, nibble]
theorem fieldNN_toNat (op : Word) : (fieldNN op).toNat = op.toNat % 256 := by simp [fieldNN]
theorem fieldNNN_toNat (op : Word) : (fieldNNN op).toNat = op.toNat % 4096 := by simp [fieldNNN]

theorem highByte_toNat (op : Word) : (highByte op).toNat = op.toNat / 256 := by
  have := op.isLt
  simp only [highByte, BitVec.extractLsb'_toNat, Nat.shiftRight_eq_div_pow]
  omega
theorem lowByte_toNat (op : Word) : (lowByte op).toNat = op.toNat % 256 := by simp [lowByte]

/-- The two bytes of a word make the word again. -/
@[simp] theorem opcodeOf_bytes (op : Word) : opcodeOf (highByte op) (lowByte op) = op := by
  apply BitVec.eq_of_toNat_eq
  rw [opcodeOf_toNat, highByte_toNat, lowByte_toNat]
  omega

/-- Decoding two bytes is decoding their word. -/
theorem decode_bytes (op : Word) (rest : List Byte) :
    decode (highByte op :: lowByte op :: rest) =
      match decodeOp op with
      | some i => .ok (i, rest)
      | none => .error (.unknownOpcode op) := by
  cases h : decodeOp op <;> simp only [decode, opcodeOf_bytes, h]

theorem encodeA_toNat (f : Nat) (nnn : Addr12) (hf : f < 16) : (encodeA f nnn).toNat = f * 4096 + nnn.toNat := by
  have := nnn.isLt
  simp only [encodeA, BitVec.toNat_ofNat]
  omega

theorem encodeXI_toNat (f : Nat) (x : Reg) (nn : Byte) (hf : f < 16) :
    (encodeXI f x nn).toNat = f * 4096 + x.val * 256 + nn.toNat := by
  have := nn.isLt
  have := x.isLt
  simp only [encodeXI, BitVec.toNat_ofNat]
  omega

theorem encodeXYN_toNat (f : Nat) (x y : Reg) (n : Nat) (hf : f < 16) (hn : n < 16) :
    (encodeXYN f x y n).toNat = f * 4096 + x.val * 256 + y.val * 16 + n := by
  have := x.isLt
  have := y.isLt
  simp only [encodeXYN, BitVec.toNat_ofNat]
  omega

theorem encodeX_toNat (f : Nat) (x : Reg) (low : Nat) (hf : f < 16) (hl : low < 256) :
    (encodeX f x low).toNat = f * 4096 + x.val * 256 + low := by
  have := x.isLt
  simp only [encodeX, BitVec.toNat_ofNat]
  omega

end Sys2Proof
end

