-- ==== Sys2Proof/Laws/State.lean ====
section
/-! SUPPORT. One lemma per field per update of the state, and the reads of one register, one byte and one
pixel through the updates that do not touch them. -/

namespace Sys2Proof.Machine

variable (s : State)

/-! ### setV -/

@[simp] theorem State.setV_mem (x : Reg) (b : Byte) : (s.setV x b).mem = s.mem := rfl
@[simp] theorem State.setV_v (x : Reg) (b : Byte) : (s.setV x b).v = s.v.set x b := rfl
@[simp] theorem State.setV_i (x : Reg) (b : Byte) : (s.setV x b).i = s.i := rfl
@[simp] theorem State.setV_pc (x : Reg) (b : Byte) : (s.setV x b).pc = s.pc := rfl
@[simp] theorem State.setV_stack (x : Reg) (b : Byte) : (s.setV x b).stack = s.stack := rfl
@[simp] theorem State.setV_sp (x : Reg) (b : Byte) : (s.setV x b).sp = s.sp := rfl
@[simp] theorem State.setV_dt (x : Reg) (b : Byte) : (s.setV x b).dt = s.dt := rfl
@[simp] theorem State.setV_st (x : Reg) (b : Byte) : (s.setV x b).st = s.st := rfl
@[simp] theorem State.setV_fb (x : Reg) (b : Byte) : (s.setV x b).fb = s.fb := rfl
@[simp] theorem State.setV_redraw (x : Reg) (b : Byte) : (s.setV x b).redraw = s.redraw := rfl
@[simp] theorem State.setV_key (x : Reg) (b : Byte) : (s.setV x b).key = s.key := rfl
@[simp] theorem State.setV_status (x : Reg) (b : Byte) : (s.setV x b).status = s.status := rfl
@[simp] theorem State.setV_draws (x : Reg) (b : Byte) : (s.setV x b).draws = s.draws := rfl
@[simp] theorem State.setV_font (x : Reg) (b : Byte) : (s.setV x b).font = s.font := rfl
@[simp] theorem State.byteAt_setV (x : Reg) (b : Byte) (a : Nat) : (s.setV x b).byteAt a = s.byteAt a := rfl
@[simp] theorem State.pixel_setV (x : Reg) (b : Byte) (px : Fin 64) (py : Fin 32) : (s.setV x b).pixel px py = s.pixel px py := rfl
@[simp] theorem State.base_setV (x : Reg) (b : Byte) : (s.setV x b).base = s.base := rfl

/-! ### setI -/

@[simp] theorem State.setI_mem (w : Word) : (s.setI w).mem = s.mem := rfl
@[simp] theorem State.setI_v (w : Word) : (s.setI w).v = s.v := rfl
@[simp] theorem State.setI_i (w : Word) : (s.setI w).i = w := rfl
@[simp] theorem State.setI_pc (w : Word) : (s.setI w).pc = s.pc := rfl
@[simp] theorem State.setI_stack (w : Word) : (s.setI w).stack = s.stack := rfl
@[simp] theorem State.setI_sp (w : Word) : (s.setI w).sp = s.sp := rfl
@[simp] theorem State.setI_dt (w : Word) : (s.setI w).dt = s.dt := rfl
@[simp] theorem State.setI_st (w : Word) : (s.setI w).st = s.st := rfl
@[simp] theorem State.setI_fb (w : Word) : (s.setI w).fb = s.fb := rfl
@[simp] theorem State.setI_redraw (w : Word) : (s.setI w).redraw = s.redraw := rfl
@[simp] theorem State.setI_key (w : Word) : (s.setI w).key = s.key := rfl
@[simp] theorem State.setI_status (w : Word) : (s.setI w).status = s.status := rfl
@[simp] theorem State.setI_draws (w : Word) : (s.setI w).draws = s.draws := rfl
@[simp] theorem State.setI_font (w : Word) : (s.setI w).font = s.font := rfl
@[simp] theorem State.getV_setI (w : Word) (r : Reg) : (s.setI w).getV r = s.getV r := rfl
@[simp] theorem State.byteAt_setI (w : Word) (a : Nat) : (s.setI w).byteAt a = s.byteAt a := rfl
@[simp] theorem State.pixel_setI (w : Word) (px : Fin 64) (py : Fin 32) : (s.setI w).pixel px py = s.pixel px py := rfl

/-! ### setPc -/

@[simp] theorem State.setPc_mem (w : Word) : (s.setPc w).mem = s.mem := rfl
@[simp] theorem State.setPc_v (w : Word) : (s.setPc w).v = s.v := rfl
@[simp] theorem State.setPc_i (w : Word) : (s.setPc w).i = s.i := rfl
@[simp] theorem State.setPc_pc (w : Word) : (s.setPc w).pc = w := rfl
@[simp] theorem State.setPc_stack (w : Word) : (s.setPc w).stack = s.stack := rfl
@[simp] theorem State.setPc_sp (w : Word) : (s.setPc w).sp = s.sp := rfl
@[simp] theorem State.setPc_dt (w : Word) : (s.setPc w).dt = s.dt := rfl
@[simp] theorem State.setPc_st (w : Word) : (s.setPc w).st = s.st := rfl
@[simp] theorem State.setPc_fb (w : Word) : (s.setPc w).fb = s.fb := rfl
@[simp] theorem State.setPc_redraw (w : Word) : (s.setPc w).redraw = s.redraw := rfl
@[simp] theorem State.setPc_key (w : Word) : (s.setPc w).key = s.key := rfl
@[simp] theorem State.setPc_status (w : Word) : (s.setPc w).status = s.status := rfl
@[simp] theorem State.setPc_draws (w : Word) : (s.setPc w).draws = s.draws := rfl
@[simp] theorem State.setPc_font (w : Word) : (s.setPc w).font = s.font := rfl
@[simp] theorem State.getV_setPc (w : Word) (r : Reg) : (s.setPc w).getV r = s.getV r := rfl
@[simp] theorem State.byteAt_setPc (w : Word) (a : Nat) : (s.setPc w).byteAt a = s.byteAt a := rfl
@[simp] theorem State.pixel_setPc (w : Word) (px : Fin 64) (py : Fin 32) : (s.setPc w).pixel px py = s.pixel px py := rfl
@[simp] theorem State.base_setPc (w : Word) : (s.setPc w).base = s.base := rfl

/-! ### setDt -/

@[simp] theorem State.setDt_mem (b : Byte) : (s.setDt b).mem = s.mem := rfl
@[simp] theorem State.setDt_v (b : Byte) : (s.setDt b).v = s.v := rfl
@[simp] theorem State.setDt_i (b : Byte) : (s.setDt b).i = s.i := rfl
@[simp] theorem State.setDt_pc (b : Byte) : (s.setDt b).pc = s.pc := rfl
@[simp] theorem State.setDt_stack (b : Byte) : (s.setDt b).stack = s.stack := rfl
@[simp] theorem State.setDt_sp (b : Byte) : (s.setDt b).sp = s.sp := rfl
@[simp] theorem State.setDt_dt (b : Byte) : (s.setDt b).dt = b := rfl
@[simp] theorem State.setDt_st (b : Byte) : (s.setDt b).st = s.st := rfl
@[simp] theorem State.setDt_fb (b : Byte) : (s.setDt b).fb = s.fb := rfl
@[simp] theorem State.setDt_redraw (b : Byte) : (s.setDt b).redraw = s.redraw := rfl
@[simp] theorem State.setDt_key (b : Byte) : (s.setDt b).key = s.key := rfl
@[simp] theorem State.setDt_status (b : Byte) : (s.setDt b).status = s.status := rfl
@[simp] theorem State.setDt_draws (b : Byte) : (s.setDt b).draws = s.draws := rfl
@[simp] theorem State.setDt_font (b : Byte) : (s.setDt b).font = s.font := rfl
@[simp] theorem State.getV_setDt (b : Byte) (r : Reg) : (s.setDt b).getV r = s.getV r := rfl
@[simp] theorem State.byteAt_setDt (b : Byte) (a : Nat) : (s.setDt b).byteAt a = s.byteAt a := rfl
@[simp] theorem State.pixel_setDt (b : Byte) (px : Fin 64) (py : Fin 32) : (s.setDt b).pixel px py = s.pixel px py := rfl
@[simp] theorem State.base_setDt (b : Byte) : (s.setDt b).base = s.base := rfl

/-! ### setSt -/

@[simp] theorem State.setSt_mem (b : Byte) : (s.setSt b).mem = s.mem := rfl
@[simp] theorem State.setSt_v (b : Byte) : (s.setSt b).v = s.v := rfl
@[simp] theorem State.setSt_i (b : Byte) : (s.setSt b).i = s.i := rfl
@[simp] theorem State.setSt_pc (b : Byte) : (s.setSt b).pc = s.pc := rfl
@[simp] theorem State.setSt_stack (b : Byte) : (s.setSt b).stack = s.stack := rfl
@[simp] theorem State.setSt_sp (b : Byte) : (s.setSt b).sp = s.sp := rfl
@[simp] theorem State.setSt_dt (b : Byte) : (s.setSt b).dt = s.dt := rfl
@[simp] theorem State.setSt_st (b : Byte) : (s.setSt b).st = b := rfl
@[simp] theorem State.setSt_fb (b : Byte) : (s.setSt b).fb = s.fb := rfl
@[simp] theorem State.setSt_redraw (b : Byte) : (s.setSt b).redraw = s.redraw := rfl
@[simp] theorem State.setSt_key (b : Byte) : (s.setSt b).key = s.key := rfl
@[simp] theorem State.setSt_status (b : Byte) : (s.setSt b).status = s.status := rfl
@[simp] theorem State.setSt_draws (b : Byte) : (s.setSt b).draws = s.draws := rfl
@[simp] theorem State.setSt_font (b : Byte) : (s.setSt b).font = s.font := rfl
@[simp] theorem State.getV_setSt (b : Byte) (r : Reg) : (s.setSt b).getV r = s.getV r := rfl
@[simp] theorem State.byteAt_setSt (b : Byte) (a : Nat) : (s.setSt b).byteAt a = s.byteAt a := rfl
@[simp] theorem State.pixel_setSt (b : Byte) (px : Fin 64) (py : Fin 32) : (s.setSt b).pixel px py = s.pixel px py := rfl
@[simp] theorem State.base_setSt (b : Byte) : (s.setSt b).base = s.base := rfl

/-! ### setFb -/

@[simp] theorem State.setFb_mem (fb : Framebuffer) : (s.setFb fb).mem = s.mem := rfl
@[simp] theorem State.setFb_v (fb : Framebuffer) : (s.setFb fb).v = s.v := rfl
@[simp] theorem State.setFb_i (fb : Framebuffer) : (s.setFb fb).i = s.i := rfl
@[simp] theorem State.setFb_pc (fb : Framebuffer) : (s.setFb fb).pc = s.pc := rfl
@[simp] theorem State.setFb_stack (fb : Framebuffer) : (s.setFb fb).stack = s.stack := rfl
@[simp] theorem State.setFb_sp (fb : Framebuffer) : (s.setFb fb).sp = s.sp := rfl
@[simp] theorem State.setFb_dt (fb : Framebuffer) : (s.setFb fb).dt = s.dt := rfl
@[simp] theorem State.setFb_st (fb : Framebuffer) : (s.setFb fb).st = s.st := rfl
@[simp] theorem State.setFb_fb (fb : Framebuffer) : (s.setFb fb).fb = fb := rfl
@[simp] theorem State.setFb_redraw (fb : Framebuffer) : (s.setFb fb).redraw = s.redraw := rfl
@[simp] theorem State.setFb_key (fb : Framebuffer) : (s.setFb fb).key = s.key := rfl
@[simp] theorem State.setFb_status (fb : Framebuffer) : (s.setFb fb).status = s.status := rfl
@[simp] theorem State.setFb_draws (fb : Framebuffer) : (s.setFb fb).draws = s.draws := rfl
@[simp] theorem State.setFb_font (fb : Framebuffer) : (s.setFb fb).font = s.font := rfl
@[simp] theorem State.getV_setFb (fb : Framebuffer) (r : Reg) : (s.setFb fb).getV r = s.getV r := rfl
@[simp] theorem State.byteAt_setFb (fb : Framebuffer) (a : Nat) : (s.setFb fb).byteAt a = s.byteAt a := rfl
@[simp] theorem State.base_setFb (fb : Framebuffer) : (s.setFb fb).base = s.base := rfl

/-! ### setRedraw -/

@[simp] theorem State.setRedraw_mem (flag : Bool) : (s.setRedraw flag).mem = s.mem := rfl
@[simp] theorem State.setRedraw_v (flag : Bool) : (s.setRedraw flag).v = s.v := rfl
@[simp] theorem State.setRedraw_i (flag : Bool) : (s.setRedraw flag).i = s.i := rfl
@[simp] theorem State.setRedraw_pc (flag : Bool) : (s.setRedraw flag).pc = s.pc := rfl
@[simp] theorem State.setRedraw_stack (flag : Bool) : (s.setRedraw flag).stack = s.stack := rfl
@[simp] theorem State.setRedraw_sp (flag : Bool) : (s.setRedraw flag).sp = s.sp := rfl
@[simp] theorem State.setRedraw_dt (flag : Bool) : (s.setRedraw flag).dt = s.dt := rfl
@[simp] theorem State.setRedraw_st (flag : Bool) : (s.setRedraw flag).st = s.st := rfl
@[simp] theorem State.setRedraw_fb (flag : Bool) : (s.setRedraw flag).fb = s.fb := rfl
@[simp] theorem State.setRedraw_redraw (flag : Bool) : (s.setRedraw flag).redraw = flag := rfl
@[simp] theorem State.setRedraw_key (flag : Bool) : (s.setRedraw flag).key = s.key := rfl
@[simp] theorem State.setRedraw_status (flag : Bool) : (s.setRedraw flag).status = s.status := rfl
@[simp] theorem State.setRedraw_draws (flag : Bool) : (s.setRedraw flag).draws = s.draws := rfl
@[simp] theorem State.setRedraw_font (flag : Bool) : (s.setRedraw flag).font = s.font := rfl
@[simp] theorem State.getV_setRedraw (flag : Bool) (r : Reg) : (s.setRedraw flag).getV r = s.getV r := rfl
@[simp] theorem State.byteAt_setRedraw (flag : Bool) (a : Nat) : (s.setRedraw flag).byteAt a = s.byteAt a := rfl
@[simp] theorem State.pixel_setRedraw (flag : Bool) (px : Fin 64) (py : Fin 32) : (s.setRedraw flag).pixel px py = s.pixel px py := rfl
@[simp] theorem State.base_setRedraw (flag : Bool) : (s.setRedraw flag).base = s.base := rfl

/-! ### setKey -/

@[simp] theorem State.setKey_mem (k : Key) (b : Bool) : (s.setKey k b).mem = s.mem := rfl
@[simp] theorem State.setKey_v (k : Key) (b : Bool) : (s.setKey k b).v = s.v := rfl
@[simp] theorem State.setKey_i (k : Key) (b : Bool) : (s.setKey k b).i = s.i := rfl
@[simp] theorem State.setKey_pc (k : Key) (b : Bool) : (s.setKey k b).pc = s.pc := rfl
@[simp] theorem State.setKey_stack (k : Key) (b : Bool) : (s.setKey k b).stack = s.stack := rfl
@[simp] theorem State.setKey_sp (k : Key) (b : Bool) : (s.setKey k b).sp = s.sp := rfl
@[simp] theorem State.setKey_dt (k : Key) (b : Bool) : (s.setKey k b).dt = s.dt := rfl
@[simp] theorem State.setKey_st (k : Key) (b : Bool) : (s.setKey k b).st = s.st := rfl
@[simp] theorem State.setKey_fb (k : Key) (b : Bool) : (s.setKey k b).fb = s.fb := rfl
@[simp] theorem State.setKey_redraw (k : Key) (b : Bool) : (s.setKey k b).redraw = s.redraw := rfl
@[simp] theorem State.setKey_key (k : Key) (b : Bool) : (s.setKey k b).key = s.key.set k b := rfl
@[simp] theorem State.setKey_status (k : Key) (b : Bool) : (s.setKey k b).status = s.status := rfl
@[simp] theorem State.setKey_draws (k : Key) (b : Bool) : (s.setKey k b).draws = s.draws := rfl
@[simp] theorem State.setKey_font (k : Key) (b : Bool) : (s.setKey k b).font = s.font := rfl
@[simp] theorem State.getV_setKey (k : Key) (b : Bool) (r : Reg) : (s.setKey k b).getV r = s.getV r := rfl
@[simp] theorem State.byteAt_setKey (k : Key) (b : Bool) (a : Nat) : (s.setKey k b).byteAt a = s.byteAt a := rfl
@[simp] theorem State.pixel_setKey (k : Key) (b : Bool) (px : Fin 64) (py : Fin 32) : (s.setKey k b).pixel px py = s.pixel px py := rfl
@[simp] theorem State.base_setKey (k : Key) (b : Bool) : (s.setKey k b).base = s.base := rfl

/-! ### setStatus -/

@[simp] theorem State.setStatus_mem (st : Status) : (s.setStatus st).mem = s.mem := rfl
@[simp] theorem State.setStatus_v (st : Status) : (s.setStatus st).v = s.v := rfl
@[simp] theorem State.setStatus_i (st : Status) : (s.setStatus st).i = s.i := rfl
@[simp] theorem State.setStatus_pc (st : Status) : (s.setStatus st).pc = s.pc := rfl
@[simp] theorem State.setStatus_stack (st : Status) : (s.setStatus st).stack = s.stack := rfl
@[simp] theorem State.setStatus_sp (st : Status) : (s.setStatus st).sp = s.sp := rfl
@[simp] theorem State.setStatus_dt (st : Status) : (s.setStatus st).dt = s.dt := rfl
@[simp] theorem State.setStatus_st (st : Status) : (s.setStatus st).st = s.st := rfl
@[simp] theorem State.setStatus_fb (st : Status) : (s.setStatus st).fb = s.fb := rfl
@[simp] theorem State.setStatus_redraw (st : Status) : (s.setStatus st).redraw = s.redraw := rfl
@[simp] theorem State.setStatus_key (st : Status) : (s.setStatus st).key = s.key := rfl
@[simp] theorem State.setStatus_status (st : Status) : (s.setStatus st).status = st := rfl
@[simp] theorem State.setStatus_draws (st : Status) : (s.setStatus st).draws = s.draws := rfl
@[simp] theorem State.setStatus_font (st : Status) : (s.setStatus st).font = s.font := rfl
@[simp] theorem State.getV_setStatus (st : Status) (r : Reg) : (s.setStatus st).getV r = s.getV r := rfl
@[simp] theorem State.byteAt_setStatus (st : Status) (a : Nat) : (s.setStatus st).byteAt a = s.byteAt a := rfl
@[simp] theorem State.pixel_setStatus (st : Status) (px : Fin 64) (py : Fin 32) : (s.setStatus st).pixel px py = s.pixel px py := rfl
@[simp] theorem State.base_setStatus (st : Status) : (s.setStatus st).base = s.base := rfl

/-! ### setMem -/

@[simp] theorem State.setMem_mem (m : Memory) : (s.setMem m).mem = m := rfl
@[simp] theorem State.setMem_v (m : Memory) : (s.setMem m).v = s.v := rfl
@[simp] theorem State.setMem_i (m : Memory) : (s.setMem m).i = s.i := rfl
@[simp] theorem State.setMem_pc (m : Memory) : (s.setMem m).pc = s.pc := rfl
@[simp] theorem State.setMem_stack (m : Memory) : (s.setMem m).stack = s.stack := rfl
@[simp] theorem State.setMem_sp (m : Memory) : (s.setMem m).sp = s.sp := rfl
@[simp] theorem State.setMem_dt (m : Memory) : (s.setMem m).dt = s.dt := rfl
@[simp] theorem State.setMem_st (m : Memory) : (s.setMem m).st = s.st := rfl
@[simp] theorem State.setMem_fb (m : Memory) : (s.setMem m).fb = s.fb := rfl
@[simp] theorem State.setMem_redraw (m : Memory) : (s.setMem m).redraw = s.redraw := rfl
@[simp] theorem State.setMem_key (m : Memory) : (s.setMem m).key = s.key := rfl
@[simp] theorem State.setMem_status (m : Memory) : (s.setMem m).status = s.status := rfl
@[simp] theorem State.setMem_draws (m : Memory) : (s.setMem m).draws = s.draws := rfl
@[simp] theorem State.setMem_font (m : Memory) : (s.setMem m).font = s.font := rfl
@[simp] theorem State.getV_setMem (m : Memory) (r : Reg) : (s.setMem m).getV r = s.getV r := rfl
@[simp] theorem State.pixel_setMem (m : Memory) (px : Fin 64) (py : Fin 32) : (s.setMem m).pixel px py = s.pixel px py := rfl
@[simp] theorem State.base_setMem (m : Memory) : (s.setMem m).base = s.base := rfl

/-! ### setStack -/

@[simp] theorem State.setStack_mem (k : Vector Word 16) (sp : Fin 17) : (s.setStack k sp).mem = s.mem := rfl
@[simp] theorem State.setStack_v (k : Vector Word 16) (sp : Fin 17) : (s.setStack k sp).v = s.v := rfl
@[simp] theorem State.setStack_i (k : Vector Word 16) (sp : Fin 17) : (s.setStack k sp).i = s.i := rfl
@[simp] theorem State.setStack_pc (k : Vector Word 16) (sp : Fin 17) : (s.setStack k sp).pc = s.pc := rfl
@[simp] theorem State.setStack_stack (k : Vector Word 16) (sp : Fin 17) : (s.setStack k sp).stack = k := rfl
@[simp] theorem State.setStack_sp (k : Vector Word 16) (sp : Fin 17) : (s.setStack k sp).sp = sp := rfl
@[simp] theorem State.setStack_dt (k : Vector Word 16) (sp : Fin 17) : (s.setStack k sp).dt = s.dt := rfl
@[simp] theorem State.setStack_st (k : Vector Word 16) (sp : Fin 17) : (s.setStack k sp).st = s.st := rfl
@[simp] theorem State.setStack_fb (k : Vector Word 16) (sp : Fin 17) : (s.setStack k sp).fb = s.fb := rfl
@[simp] theorem State.setStack_redraw (k : Vector Word 16) (sp : Fin 17) : (s.setStack k sp).redraw = s.redraw := rfl
@[simp] theorem State.setStack_key (k : Vector Word 16) (sp : Fin 17) : (s.setStack k sp).key = s.key := rfl
@[simp] theorem State.setStack_status (k : Vector Word 16) (sp : Fin 17) : (s.setStack k sp).status = s.status := rfl
@[simp] theorem State.setStack_draws (k : Vector Word 16) (sp : Fin 17) : (s.setStack k sp).draws = s.draws := rfl
@[simp] theorem State.setStack_font (k : Vector Word 16) (sp : Fin 17) : (s.setStack k sp).font = s.font := rfl
@[simp] theorem State.getV_setStack (k : Vector Word 16) (sp : Fin 17) (r : Reg) : (s.setStack k sp).getV r = s.getV r := rfl
@[simp] theorem State.byteAt_setStack (k : Vector Word 16) (sp : Fin 17) (a : Nat) : (s.setStack k sp).byteAt a = s.byteAt a := rfl
@[simp] theorem State.pixel_setStack (k : Vector Word 16) (sp : Fin 17) (px : Fin 64) (py : Fin 32) : (s.setStack k sp).pixel px py = s.pixel px py := rfl
@[simp] theorem State.base_setStack (k : Vector Word 16) (sp : Fin 17) : (s.setStack k sp).base = s.base := rfl

/-! ### setRegs -/

@[simp] theorem State.setRegs_mem (v : Vector Byte 16) : (s.setRegs v).mem = s.mem := rfl
@[simp] theorem State.setRegs_v (v : Vector Byte 16) : (s.setRegs v).v = v := rfl
@[simp] theorem State.setRegs_i (v : Vector Byte 16) : (s.setRegs v).i = s.i := rfl
@[simp] theorem State.setRegs_pc (v : Vector Byte 16) : (s.setRegs v).pc = s.pc := rfl
@[simp] theorem State.setRegs_stack (v : Vector Byte 16) : (s.setRegs v).stack = s.stack := rfl
@[simp] theorem State.setRegs_sp (v : Vector Byte 16) : (s.setRegs v).sp = s.sp := rfl
@[simp] theorem State.setRegs_dt (v : Vector Byte 16) : (s.setRegs v).dt = s.dt := rfl
@[simp] theorem State.setRegs_st (v : Vector Byte 16) : (s.setRegs v).st = s.st := rfl
@[simp] theorem State.setRegs_fb (v : Vector Byte 16) : (s.setRegs v).fb = s.fb := rfl
@[simp] theorem State.setRegs_redraw (v : Vector Byte 16) : (s.setRegs v).redraw = s.redraw := rfl
@[simp] theorem State.setRegs_key (v : Vector Byte 16) : (s.setRegs v).key = s.key := rfl
@[simp] theorem State.setRegs_status (v : Vector Byte 16) : (s.setRegs v).status = s.status := rfl
@[simp] theorem State.setRegs_draws (v : Vector Byte 16) : (s.setRegs v).draws = s.draws := rfl
@[simp] theorem State.setRegs_font (v : Vector Byte 16) : (s.setRegs v).font = s.font := rfl
@[simp] theorem State.byteAt_setRegs (v : Vector Byte 16) (a : Nat) : (s.setRegs v).byteAt a = s.byteAt a := rfl
@[simp] theorem State.pixel_setRegs (v : Vector Byte 16) (px : Fin 64) (py : Fin 32) : (s.setRegs v).pixel px py = s.pixel px py := rfl
@[simp] theorem State.base_setRegs (v : Vector Byte 16) : (s.setRegs v).base = s.base := rfl

/-! ### countDraw -/

@[simp] theorem State.countDraw_mem : s.countDraw.mem = s.mem := rfl
@[simp] theorem State.countDraw_v : s.countDraw.v = s.v := rfl
@[simp] theorem State.countDraw_i : s.countDraw.i = s.i := rfl
@[simp] theorem State.countDraw_pc : s.countDraw.pc = s.pc := rfl
@[simp] theorem State.countDraw_stack : s.countDraw.stack = s.stack := rfl
@[simp] theorem State.countDraw_sp : s.countDraw.sp = s.sp := rfl
@[simp] theorem State.countDraw_dt : s.countDraw.dt = s.dt := rfl
@[simp] theorem State.countDraw_st : s.countDraw.st = s.st := rfl
@[simp] theorem State.countDraw_fb : s.countDraw.fb = s.fb := rfl
@[simp] theorem State.countDraw_redraw : s.countDraw.redraw = s.redraw := rfl
@[simp] theorem State.countDraw_key : s.countDraw.key = s.key := rfl
@[simp] theorem State.countDraw_status : s.countDraw.status = s.status := rfl
@[simp] theorem State.countDraw_draws : s.countDraw.draws = s.draws + 1 := rfl
@[simp] theorem State.countDraw_font : s.countDraw.font = s.font := rfl
@[simp] theorem State.getV_countDraw (r : Reg) : s.countDraw.getV r = s.getV r := rfl
@[simp] theorem State.byteAt_countDraw (a : Nat) : s.countDraw.byteAt a = s.byteAt a := rfl
@[simp] theorem State.pixel_countDraw (px : Fin 64) (py : Fin 32) : s.countDraw.pixel px py = s.pixel px py := rfl
@[simp] theorem State.base_countDraw : s.countDraw.base = s.base := rfl

/-! ### The elements that an update does touch -/

/-- A register reads what was last written to it. -/
@[simp] theorem State.getV_setV_self (x : Reg) (b : Byte) : (s.setV x b).getV x = b := by
  simp [State.getV, State.setV]

/-- A write to one register leaves every other alone. -/
@[simp] theorem State.getV_setV_of_ne {x r : Reg} (b : Byte) (h : r ≠ x) : (s.setV x b).getV r = s.getV r := by
  have : x.val ≠ r.val := fun e => h (Fin.ext e.symm)
  simp [State.getV, State.setV, this]

/-- Any register after a write. -/
theorem State.getV_setV (x r : Reg) (b : Byte) : (s.setV x b).getV r = if r = x then b else s.getV r := by
  split
  · subst r; simp
  · simp [*]

/-- A pixel after the framebuffer is replaced. -/
@[simp] theorem State.pixel_setFb (fb : Framebuffer) (x : Fin 64) (y : Fin 32) :
    (s.setFb fb).pixel x y = Framebuffer.pixel fb x y := rfl

/-- A register after all are replaced. -/
@[simp] theorem State.getV_setRegs (v : Vector Byte 16) (r : Reg) : (s.setRegs v).getV r = v[r] := rfl

/-- The base address after a write of `I`. -/
@[simp] theorem State.base_setI (w : Word) : (s.setI w).base = w.toNat := rfl

end Sys2Proof.Machine
end

