-- ==== Sys2Proof/Laws/Framebuffer.lean ====
section
/-! SUPPORT. What drawing does to one pixel and to the collision bit: a sprite bit 1 toggles its pixel, a row
of at most 64 pixels touches each at most once, and so do at most 32 rows (spec/44_display.md R161, R162). -/

namespace Sys2Proof.Machine

/-- One pixel after one pixel is toggled. -/
theorem Framebuffer.pixel_toggle (fb : Framebuffer) (x x' : Fin 64) (y y' : Fin 32) :
    Framebuffer.pixel (Framebuffer.toggle fb x y) x' y' =
      (Framebuffer.pixel fb x' y' ^^ (decide (x' = x) && decide (y' = y))) := by
  simp only [Framebuffer.pixel, Framebuffer.toggle]
  by_cases hy : y' = y
  · subst hy
    simp only [Fin.getElem_fin, Vector.getElem_set_self, BitVec.getLsbD_xor, BitVec.getLsbD_shiftLeft,
      BitVec.getLsbD_one, decide_true, Bool.and_true]
    congr 1
    have h1 := x.isLt; have h2 := x'.isLt
    rw [Bool.eq_iff_iff]
    simp only [Bool.and_eq_true, Bool.not_eq_true', decide_eq_true_eq, decide_eq_false_iff_not, Fin.ext_iff]
    omega
  · have : y.val ≠ y'.val := fun e => hy (Fin.ext e.symm)
    simp [Vector.getElem_set_ne, this, hy]

/-- One pixel after a sprite bit 1 is drawn. -/
theorem pixel_drawPixel (c : Canvas) (x x' : Fin 64) (y y' : Fin 32) :
    Framebuffer.pixel (drawPixel c x y).1 x' y' =
      (Framebuffer.pixel c.1 x' y' ^^ (decide (x' = x) && decide (y' = y))) :=
  Framebuffer.pixel_toggle ..

/-- Clearing clears every pixel. -/
@[simp] theorem Framebuffer.pixel_replicate_zero (x : Fin 64) (y : Fin 32) :
    Framebuffer.pixel (Vector.replicate 32 0#64) x y = false := by
  simp [Framebuffer.pixel]

/-- The first `n` pixels of a row, drawn one after another. -/
def drawPart (c : Canvas) (x0 y n : Nat) (b : Byte) : Canvas :=
  (List.range n).foldl (fun c col => if spriteBit b col then drawPixel c (wrapX (x0 + col)) (wrapY y) else c) c

theorem drawPart_succ (c : Canvas) (x0 y n : Nat) (b : Byte) :
    drawPart c x0 y (n + 1) b =
      if spriteBit b n then drawPixel (drawPart c x0 y n b) (wrapX (x0 + n)) (wrapY y) else drawPart c x0 y n b := by
  simp only [drawPart, List.range_succ, List.foldl_append, List.foldl_cons, List.foldl_nil]

/-- The pixel lies in the first `n` columns of a row drawn at `(x0, y0)` and its sprite bit is 1. -/
def InPart (x0 y0 n : Nat) (b : Byte) (x : Fin 64) (y : Fin 32) : Prop :=
  y0 % 32 = y.val ∧ ∃ col < n, spriteBit b col = true ∧ (x0 + col) % 64 = x.val

/-- What the first `n <= 64` pixels of a row do: each covered pixel toggles, and the collision bit records
whether one of them was set. -/
theorem drawPart_spec (c : Canvas) (x0 y0 : Nat) (b : Byte) (n : Nat) (hn : n ≤ 64) :
    (∀ x y, Framebuffer.pixel (drawPart c x0 y0 n b).1 x y = true ↔
      ¬(Framebuffer.pixel c.1 x y = true ↔ InPart x0 y0 n b x y)) ∧
    ((drawPart c x0 y0 n b).2 = true ↔
      c.2 = true ∨ ∃ x y, InPart x0 y0 n b x y ∧ Framebuffer.pixel c.1 x y = true) := by
  induction n with
  | zero => simp [drawPart, InPart]
  | succ n ih =>
    obtain ⟨hp, hc⟩ := ih (by omega)
    have hstep : ∀ x y, InPart x0 y0 (n + 1) b x y ↔
        InPart x0 y0 n b x y ∨ (spriteBit b n = true ∧ x = wrapX (x0 + n) ∧ y = wrapY y0) := by
      intro x y
      simp only [InPart, wrapX, wrapY, Fin.ext_iff]
      constructor
      · rintro ⟨hy, col, hcol, hb, hx⟩
        rcases Nat.lt_succ_iff_lt_or_eq.1 hcol with h | rfl
        · exact .inl ⟨hy, col, h, hb, hx⟩
        · exact .inr ⟨hb, hx.symm, hy.symm⟩
      · rintro (⟨hy, col, hcol, hb, hx⟩ | ⟨hb, hx, hy⟩)
        · exact ⟨hy, col, by omega, hb, hx⟩
        · exact ⟨hy.symm, n, by omega, hb, hx.symm⟩
    have hnot : ¬InPart x0 y0 n b (wrapX (x0 + n)) (wrapY y0) := by
      rintro ⟨-, col, hcol, -, hx⟩
      simp only [wrapX] at hx
      omega
    rw [drawPart_succ]
    by_cases hb : spriteBit b n = true
    · simp only [hb, if_true]
      refine ⟨fun x y => ?_, ?_⟩
      · rw [pixel_drawPixel, hstep]
        by_cases hxy : x = wrapX (x0 + n) ∧ y = wrapY y0
        · obtain ⟨rfl, rfl⟩ := hxy
          have hsame : (drawPart c x0 y0 n b).1.pixel (wrapX (x0 + n)) (wrapY y0) =
              c.1.pixel (wrapX (x0 + n)) (wrapY y0) := by
            rw [Bool.eq_iff_iff, hp]; simp [hnot]
          simp [hsame, hb]
        · have hd : (decide (x = wrapX (x0 + n)) && decide (y = wrapY y0)) = false := by
            simpa using hxy
          rw [hd, Bool.xor_false, hp]
          simp only [hxy, and_false, or_false]
      · simp only [drawPixel, Bool.or_eq_true, hc, hp, hnot]
        constructor
        · rintro ((h | ⟨x, y, hi, h⟩) | h)
          · exact .inl h
          · exact .inr ⟨x, y, (hstep x y).2 (.inl hi), h⟩
          · exact .inr ⟨_, _, (hstep _ _).2 (.inr ⟨hb, rfl, rfl⟩), by simpa using h⟩
        · rintro (h | ⟨x, y, hi, h⟩)
          · exact .inl (.inl h)
          · rcases (hstep x y).1 hi with hi | ⟨-, rfl, rfl⟩
            · exact .inl (.inr ⟨x, y, hi, h⟩)
            · exact .inr (by simpa using h)
    · simp only [hb, Bool.false_eq_true, if_false]
      have : ∀ x y, InPart x0 y0 (n + 1) b x y ↔ InPart x0 y0 n b x y := fun x y => by
        rw [hstep]; simp [hb]
      simpa only [this] using ⟨hp, hc⟩

/-- The pixel is covered by a set bit of the rows `bs` drawn at `(x0, y0)`. -/
def InRows (x0 y0 : Nat) (bs : List Byte) (x : Fin 64) (y : Fin 32) : Prop :=
  ∃ row, ∃ h : row < bs.length, InPart x0 (y0 + row) 8 bs[row] x y

/-- What drawing at most 32 rows does: each covered pixel toggles, and the collision bit records whether one of
them was set. -/
theorem drawSprite_spec (bs : List Byte) (c : Canvas) (x0 y0 : Nat) (hn : bs.length ≤ 32) :
    (∀ x y, Framebuffer.pixel (drawSprite c x0 y0 bs).1 x y = true ↔
      ¬(Framebuffer.pixel c.1 x y = true ↔ InRows x0 y0 bs x y)) ∧
    ((drawSprite c x0 y0 bs).2 = true ↔
      c.2 = true ∨ ∃ x y, InRows x0 y0 bs x y ∧ Framebuffer.pixel c.1 x y = true) := by
  induction bs generalizing c y0 with
  | nil => simp [drawSprite, InRows]
  | cons b rest ih =>
    simp only [List.length_cons] at hn
    obtain ⟨hp, hc⟩ := drawPart_spec c x0 y0 b 8 (by omega)
    obtain ⟨ip, ic⟩ := ih (drawPart c x0 y0 8 b) (y0 + 1) (by omega)
    have hcons : ∀ x y, InRows x0 y0 (b :: rest) x y ↔ InPart x0 y0 8 b x y ∨ InRows x0 (y0 + 1) rest x y := by
      intro x y
      constructor
      · rintro ⟨row, h, hr⟩
        cases row with
        | zero => exact .inl hr
        | succ row => exact .inr ⟨row, by simpa using h, by simpa [Nat.add_assoc, Nat.add_comm 1] using hr⟩
      · rintro (h | ⟨row, h, hr⟩)
        · exact ⟨0, by simp, h⟩
        · exact ⟨row + 1, by simpa using h, by simpa [Nat.add_assoc, Nat.add_comm 1] using hr⟩
    have hexcl : ∀ x y, InPart x0 y0 8 b x y → ¬InRows x0 (y0 + 1) rest x y := by
      rintro x y ⟨hy, -⟩ ⟨row, h, hy', -⟩
      omega
    have hrow : drawSprite c x0 y0 (b :: rest) = drawSprite (drawPart c x0 y0 8 b) x0 (y0 + 1) rest := rfl
    rw [hrow]
    refine ⟨fun x y => ?_, ?_⟩
    · rw [ip, hp, hcons]
      have := hexcl x y
      tauto
    · rw [ic, hc]
      constructor
      · rintro ((h | ⟨x, y, hi, h⟩) | ⟨x, y, hi, h⟩)
        · exact .inl h
        · exact .inr ⟨x, y, (hcons x y).2 (.inl hi), h⟩
        · refine .inr ⟨x, y, (hcons x y).2 (.inr hi), ?_⟩
          have := hexcl x y
          have := (hp x y).1 h
          tauto
      · rintro (h | ⟨x, y, hi, h⟩)
        · exact .inl (.inl h)
        · rcases (hcons x y).1 hi with hi | hi
          · exact .inl (.inr ⟨x, y, hi, h⟩)
          · refine .inr ⟨x, y, hi, ?_⟩
            rw [hp]
            have := hexcl x y
            tauto

end Sys2Proof.Machine
end

