-- ==== Sys2Proof/Laws/Memory.lean ====
section
/-! SUPPORT. Memory as data: what a read gives after a write, and that every write keeps the canonical form. -/

namespace Sys2Proof.Machine

variable {m : Memory} {font : Font}

@[simp] theorem Memory.read_nil (a : Nat) : Memory.read [] font a = unlisted font a := rfl

theorem Memory.read_erase (a c : Nat) :
    (m.erase a).read font c = if c = a then unlisted font c else m.read font c := by
  induction m with
  | nil => simp [Memory.erase, Memory.read]
  | cons e rest ih =>
    obtain ⟨d, b⟩ := e
    simp only [Memory.erase, Memory.read]
    split
    · rw [ih]; split
      · rfl
      · rw [if_neg (by omega)]
    · simp only [Memory.read, ih]; split
      · rw [if_neg (by omega)]
      · rfl

theorem Memory.read_place (a c : Nat) (b : Byte) (h : ∀ e ∈ m, e.1 ≠ a) :
    (m.place a b).read font c = if c = a then b else m.read font c := by
  induction m with
  | nil => simp [Memory.place, Memory.read]
  | cons e rest ih =>
    obtain ⟨d, x⟩ := e
    have hd : d ≠ a := h (d, x) List.mem_cons_self
    simp only [Memory.place]
    split
    · rfl
    · simp only [Memory.read, ih (fun e he => h e (List.mem_cons_of_mem _ he))]
      split
      · rw [if_neg (by omega)]
      · rfl

/-- Erasing keeps a sublist of the entries. -/
theorem Memory.erase_sublist (a : Nat) : (m.erase a).Sublist m := by
  induction m with
  | nil => simp [Memory.erase]
  | cons e rest ih =>
    simp only [Memory.erase]
    split
    · exact ih.cons _
    · exact ih.cons_cons _

theorem Memory.ne_of_mem_erase {a : Nat} {e : Host.Cell} (h : e ∈ m.erase a) : e.1 ≠ a := by
  induction m with
  | nil => simp [Memory.erase] at h
  | cons d rest ih =>
    simp only [Memory.erase] at h
    split at h
    · exact ih h
    · rcases List.mem_cons.1 h with rfl | h
      · exact fun hd => absurd hd.symm (by assumption)
      · exact ih h

/-- One cell after a write of one cell: the byte written, or what was there (R43). -/
theorem Memory.read_write (a c : Nat) (b : Byte) :
    (m.write font a b).read font c = if c = a then b else m.read font c := by
  unfold Memory.write
  split
  · rename_i h; rw [Memory.read_erase, h]; split <;> simp [*]
  · rw [Memory.read_place _ _ _ (fun _ => Memory.ne_of_mem_erase), Memory.read_erase]
    split <;> simp [*]

/-- One cell after a write of consecutive cells. -/
theorem Memory.read_writeList (bs : List Byte) (base c : Nat) :
    (m.writeList font base bs).read font c =
      if h : base ≤ c ∧ c < base + bs.length then bs[c - base] else m.read font c := by
  induction bs generalizing m base with
  | nil => simp only [Memory.writeList, List.length_nil]; rw [dif_neg (by omega)]
  | cons b rest ih =>
    simp only [Memory.writeList, ih, List.length_cons, Memory.read_write]
    by_cases hc : c = base
    · subst hc; simp
    · by_cases h : base + 1 ≤ c ∧ c < base + 1 + rest.length
      · rw [dif_pos h, dif_pos (by omega), List.getElem_cons, dif_neg (by omega)]
        congr 1
      · rw [dif_neg h, dif_neg (by omega), if_neg hc]

/-! ### The canonical form -/

theorem Memory.wf_nil : Memory.wf [] font := ⟨.nil, fun _ h => absurd h List.not_mem_nil⟩

theorem Memory.wf_erase (a : Nat) (h : m.wf font) : (m.erase a).wf font :=
  ⟨h.1.sublist (Memory.erase_sublist a), fun e he => h.2 e ((Memory.erase_sublist a).subset he)⟩

theorem Memory.mem_place {a : Nat} {b : Byte} {e : Host.Cell} : e ∈ m.place a b ↔ e = (a, b) ∨ e ∈ m := by
  induction m with
  | nil => simp [Memory.place]
  | cons d rest ih =>
    simp only [Memory.place]
    split
    · simp
    · simp only [List.mem_cons, ih]; tauto

theorem Memory.wf_place {a : Nat} {b : Byte} (ha : a < 0x1000) (hb : b ≠ unlisted font a)
    (hne : ∀ e ∈ m, e.1 ≠ a) (h : m.wf font) : (m.place a b).wf font := by
  refine ⟨?_, fun e he => ?_⟩
  · have hs := h.1
    clear h
    induction m with
    | nil => simp [Memory.place]
    | cons d rest ih =>
      obtain ⟨hd, hr⟩ := List.pairwise_cons.1 hs
      simp only [Memory.place]
      split
      · rename_i hlt
        refine List.pairwise_cons.2 ⟨fun e he => ?_, hs⟩
        rcases List.mem_cons.1 he with rfl | he
        · exact hlt
        · exact lt_trans hlt (hd e he)
      · rename_i hge
        have hda : d.1 ≠ a := hne d (by simp)
        refine List.pairwise_cons.2 ⟨fun e he => ?_, ih (fun e he => hne e (by simp [he])) hr⟩
        rcases Memory.mem_place.1 he with rfl | he
        · simp only; omega
        · exact hd e he
  · rcases Memory.mem_place.1 he with rfl | he
    · exact ⟨ha, hb⟩
    · exact h.2 e he

/-- Writing an existing cell keeps the canonical form. -/
theorem Memory.wf_write {a : Nat} (b : Byte) (ha : a < 0x1000) (h : m.wf font) : (m.write font a b).wf font := by
  unfold Memory.write
  split
  · exact Memory.wf_erase a h
  · exact Memory.wf_place ha (by assumption) (fun _ => Memory.ne_of_mem_erase) (Memory.wf_erase a h)

/-- Writing consecutive existing cells keeps the canonical form. -/
theorem Memory.wf_writeList (bs : List Byte) (base : Nat) (hb : base + bs.length ≤ 0x1000) (h : m.wf font) :
    (m.writeList font base bs).wf font := by
  induction bs generalizing m base with
  | nil => exact h
  | cons b rest ih =>
    simp only [List.length_cons] at hb
    exact ih (base + 1) (by omega) (Memory.wf_write b (by omega) h)

end Sys2Proof.Machine
end

