-- ==== Sys2Proof/Laws/Ops.lean ====
section
/-! SUPPORT. One lemma per shared operation, saying all it can do, for the meanings' proofs to cite instead of
unfolding the operation. -/

namespace Sys2Proof.Machine

variable {s t : State}

/-! ### Memory access -/

@[simp] theorem State.byteAt_setMem (m : Memory) (a : Nat) : (s.setMem m).byteAt a = m.read s.font a := rfl

/-- A byte after bytes are stored. -/
theorem State.byteAt_storeBytes (base a : Nat) (bs : List Byte) :
    (s.storeBytes base bs).byteAt a =
      if h : base ≤ a ∧ a < base + bs.length then bs[a - base] else s.byteAt a :=
  Memory.read_writeList bs base a

/-- The `j`-th stored byte. -/
theorem State.byteAt_storeBytes_of_lt {base j : Nat} {bs : List Byte} (h : j < bs.length) :
    (s.storeBytes base bs).byteAt (base + j) = bs[j] := by
  rw [State.byteAt_storeBytes, dif_pos ⟨by omega, by omega⟩]
  congr 1
  omega

/-- A byte outside the stored range. -/
theorem State.byteAt_storeBytes_of_not {base a : Nat} {bs : List Byte}
    (h : ¬(base ≤ a ∧ a < base + bs.length)) : (s.storeBytes base bs).byteAt a = s.byteAt a := by
  rw [State.byteAt_storeBytes, dif_neg h]

/-- Storing bytes touches nothing but memory. -/
theorem State.storeBytes_eq (base : Nat) (bs : List Byte) :
    s.storeBytes base bs = s.setMem (s.mem.writeList s.font base bs) := rfl

@[simp] theorem State.getV_storeBytes (base : Nat) (bs : List Byte) (r : Reg) :
    (s.storeBytes base bs).getV r = s.getV r := rfl
@[simp] theorem State.pixel_storeBytes (base : Nat) (bs : List Byte) (x : Fin 64) (y : Fin 32) :
    (s.storeBytes base bs).pixel x y = s.pixel x y := rfl
@[simp] theorem State.pc_storeBytes (base : Nat) (bs : List Byte) : (s.storeBytes base bs).pc = s.pc := rfl
@[simp] theorem State.status_storeBytes (base : Nat) (bs : List Byte) :
    (s.storeBytes base bs).status = s.status := rfl
@[simp] theorem State.font_storeBytes (base : Nat) (bs : List Byte) : (s.storeBytes base bs).font = s.font := rfl
@[simp] theorem State.mem_storeBytes (base : Nat) (bs : List Byte) :
    (s.storeBytes base bs).mem = s.mem.writeList s.font base bs := rfl

theorem memRead_ok {a : Nat} (h : a ≤ 0xFFF) : memRead s a = .ok (s.byteAt a) := by
  rw [memRead, if_neg (by omega)]

theorem memRead_error {a : Nat} (h : 0xFFF < a) : memRead s a = .error .outOfRangeAccess := by
  rw [memRead, if_pos h]

theorem readBytes_ok {base n : Nat} (h : rangeValid base n) :
    readBytes s base n = .ok ((List.range n).map fun j => s.byteAt (base + j)) := if_pos h

theorem readBytes_error {base n : Nat} (h : ¬rangeValid base n) :
    readBytes s base n = .error .outOfRangeAccess := if_neg h

/-- All a guarded read can do. -/
theorem readBytes_cases (base n : Nat) :
    (rangeValid base n ∧ readBytes s base n = .ok ((List.range n).map fun j => s.byteAt (base + j))) ∨
      (¬rangeValid base n ∧ readBytes s base n = .error .outOfRangeAccess) := by
  by_cases h : rangeValid base n
  · exact .inl ⟨h, readBytes_ok h⟩
  · exact .inr ⟨h, readBytes_error h⟩

theorem writeBytes_ok {base : Nat} {bs : List Byte} (h : rangeValid base bs.length) :
    writeBytes s base bs = .ok (s.storeBytes base bs) := if_pos h

theorem writeBytes_error {base : Nat} {bs : List Byte} (h : ¬rangeValid base bs.length) :
    writeBytes s base bs = .error .outOfRangeAccess := if_neg h

/-- All a guarded write can do. -/
theorem writeBytes_cases (base : Nat) (bs : List Byte) :
    (rangeValid base bs.length ∧ writeBytes s base bs = .ok (s.storeBytes base bs)) ∨
      (¬rangeValid base bs.length ∧ writeBytes s base bs = .error .outOfRangeAccess) := by
  by_cases h : rangeValid base bs.length
  · exact .inl ⟨h, writeBytes_ok h⟩
  · exact .inr ⟨h, writeBytes_error h⟩

/-- A valid range of stored bytes keeps the canonical form. -/
theorem State.wf_storeBytes {base : Nat} {bs : List Byte} (h : rangeValid base bs.length)
    (hw : s.mem.wf s.font) : (s.storeBytes base bs).mem.wf (s.storeBytes base bs).font := by
  cases bs with
  | nil => exact hw
  | cons b rest =>
    refine Memory.wf_writeList (b :: rest) base ?_ hw
    simp only [rangeValid, List.length_cons] at h ⊢
    omega

/-! ### Outcomes -/

@[simp] theorem raise_eq (k : HaltReason) : raise k s = .next (s.setStatus (.halted k)) := rfl
@[simp] theorem advance_eq : advance s = .next (s.setPc (s.pc + 2)) := rfl
@[simp] theorem jumpTo_eq (w : Word) : jumpTo w s = .next (s.setPc w) := rfl
@[simp] theorem skipIf_eq (c : Bool) : skipIf c s = .next (s.setPc (if c then s.pc + 4 else s.pc + 2)) := rfl

/-- All a call can do. -/
theorem callTo_cases (w : Word) :
    (∃ h : s.sp.val < 16, callTo w s =
      .next ((s.setStack (s.stack.set s.sp.val (s.pc + 2)) ⟨s.sp.val + 1, by omega⟩).setPc w)) ∨
      (s.sp.val = 16 ∧ callTo w s = .next (s.setStatus (.halted .stackOverflow))) := by
  by_cases h : s.sp.val < 16
  · exact .inl ⟨h, by simp [callTo, h]⟩
  · exact .inr ⟨by omega, by simp [callTo, h]⟩

/-- All a return can do. -/
theorem returnFrom_cases :
    (∃ h : 0 < s.sp.val, returnFrom s =
      .next ((s.setStack s.stack ⟨s.sp.val - 1, by omega⟩).setPc (s.stack[s.sp.val - 1]'(by omega)))) ∨
      (s.sp.val = 0 ∧ returnFrom s = .next (s.setStatus (.halted .stackUnderflow))) := by
  by_cases h : 0 < s.sp.val
  · exact .inl ⟨h, by simp [returnFrom, h]⟩
  · exact .inr ⟨by omega, by simp [returnFrom, h]⟩

/-- The flag is written first and the result second. -/
theorem getV_writeFlagThen (x r : Reg) (flag result : Byte) :
    (writeFlagThen x flag result s).getV r = if r = x then result else if r = regF then flag else s.getV r := by
  simp only [writeFlagThen, State.getV_setV]

/-- Writing a flag and a result touches nothing but registers. -/
theorem writeFlagThen_eq (x : Reg) (flag result : Byte) :
    writeFlagThen x flag result s = s.setRegs ((s.v.set regF flag).set x result) := rfl

/-- Loading registers touches those with an index into the bytes. -/
theorem State.getV_loadRegs (bs : List Byte) (r : Reg) :
    (s.loadRegs bs).getV r = bs.getD r.val (s.getV r) := by
  simp [State.loadRegs, State.getV]

theorem State.loadRegs_eq (bs : List Byte) :
    s.loadRegs bs = s.setRegs (Vector.ofFn fun j => bs.getD j.val s.v[j]) := rfl

@[simp] theorem State.length_lowRegs (x : Reg) : (s.lowRegs x).length = x.val + 1 := by
  simp [State.lowRegs]

theorem State.getElem_lowRegs (x r : Reg) (h : r.val < (s.lowRegs x).length) : (s.lowRegs x)[r.val] = s.getV r := by
  simp [State.lowRegs, State.getV]

@[simp] theorem length_bcdDigits (b : Byte) : (bcdDigits b).length = 3 := rfl

/-! ### The keypad poll -/

/-- The lowest key that is down, or none is. -/
theorem lowestKeyDown_eq_some {key : Vector Bool 16} {k : Key} :
    lowestKeyDown key = some k ↔ key[k] = true ∧ ∀ j : Key, j < k → key[j] = false := by
  rw [lowestKeyDown, List.find?_eq_some_iff_getElem]
  constructor
  · rintro ⟨hk, n, hn, rfl, h⟩
    refine ⟨hk, fun j hj => ?_⟩
    have := h j.val (by simpa [Fin.lt_def] using hj)
    simpa using this
  · rintro ⟨hk, h⟩
    refine ⟨hk, k.val, by simp, by simp, fun j hj => ?_⟩
    simpa using h ⟨j, by omega⟩ hj

theorem lowestKeyDown_eq_none {key : Vector Bool 16} :
    lowestKeyDown key = none ↔ ∀ k : Key, key[k] = false := by
  simp [lowestKeyDown]

/-- All a poll can do. -/
theorem pollKeypad_cases (x : Reg) :
    (∃ k, lowestKeyDown s.key = some k ∧ pollKeypad x s =
      .next (((s.setV x (BitVec.ofNat 8 k.val)).setStatus .running).setPc (s.pc + 2))) ∨
      (lowestKeyDown s.key = none ∧ pollKeypad x s = .next s) := by
  unfold pollKeypad
  cases h : lowestKeyDown s.key with
  | some k => exact .inl ⟨k, rfl, rfl⟩
  | none => exact .inr ⟨rfl, rfl⟩

/-! ### Fetch -/

theorem fetch_ok (h : s.pc.toNat ≤ 0xFFE) :
    fetch s = .ok (opcodeOf (s.byteAt s.pc.toNat) (s.byteAt (s.pc.toNat + 1))) := by
  simp [fetch, memRead_ok (show s.pc.toNat ≤ 0xFFF by omega), memRead_ok (show s.pc.toNat + 1 ≤ 0xFFF by omega)]

theorem fetch_error (h : 0xFFE < s.pc.toNat) : fetch s = .error .outOfRangeAccess := by
  by_cases h1 : s.pc.toNat ≤ 0xFFF
  · simp [fetch, memRead_ok h1, memRead_error (show 0xFFF < s.pc.toNat + 1 by omega)]
  · simp [fetch, memRead_error (show 0xFFF < s.pc.toNat by omega)]

/-- All a fetch and decode can do, in the order of the checks (R196). -/
theorem fetchDecode_cases :
    (0xFFE < s.pc.toNat ∧ fetchDecode s = .error .outOfRangeAccess) ∨
      (s.pc.toNat ≤ 0xFFE ∧
        ((∃ i, decodeOp (opcodeOf (s.byteAt s.pc.toNat) (s.byteAt (s.pc.toNat + 1))) = some i ∧
            fetchDecode s = .ok i) ∨
          (decodeOp (opcodeOf (s.byteAt s.pc.toNat) (s.byteAt (s.pc.toNat + 1))) = none ∧
            fetchDecode s = .error .unknownOpcode))) := by
  by_cases h : s.pc.toNat ≤ 0xFFE
  · refine .inr ⟨h, ?_⟩
    simp only [fetchDecode, fetch_ok h]
    cases decodeOp (opcodeOf (s.byteAt s.pc.toNat) (s.byteAt (s.pc.toNat + 1))) with
    | some i => exact .inl ⟨i, rfl, rfl⟩
    | none => exact .inr ⟨rfl, rfl⟩
  · exact .inl ⟨by omega, by simp [fetchDecode, fetch_error (show 0xFFE < s.pc.toNat by omega)]⟩

/-! ### Reset -/

/-- All a reset with a ROM can do (R220, R221). -/
theorem resetWith_cases (rom : List Byte) :
    (rom.length ≤ 3584 ∧ resetWith rom s =
      .next ({ State.reset with key := s.key, draws := s.draws, font := s.font }.storeBytes 0x200 rom)) ∨
      (3584 < rom.length ∧ resetWith rom s = .fault .romLoadError) := by
  by_cases h : rom.length ≤ 3584
  · exact .inl ⟨h, if_pos h⟩
  · exact .inr ⟨by omega, if_neg h⟩

end Sys2Proof.Machine
end

