-- ==== Sys2Proof/Laws/Frames.lean ====
section
/-! SUPPORT. How a frame is built: each named update leaves every part but its own, so a chain of updates leaves
every part outside the list of theirs. -/

namespace Sys2Proof.Machine

variable {s t u : State} {ps : List Part}

theorem SameBut.refl (ps : List Part) (s : State) : SameBut ps s s := by
  intro p _; cases p <;> simp [Part.same]

theorem Part.same.trans {p : Part} (h : p.same s t) (h' : p.same t u) : p.same s u := by
  cases p <;> simp only [Part.same] at * <;> simp_all

theorem SameBut.trans (h : SameBut ps s t) (h' : SameBut ps t u) : SameBut ps s u :=
  fun p hp => (h p hp).trans (h' p hp)

/-- A frame holds of a longer list. -/
theorem SameBut.mono {qs : List Part} (h : SameBut ps s t) (hq : ∀ p ∈ ps, p ∈ qs) : SameBut qs s t :=
  fun p hp => h p fun hps => hp (hq p hps)

theorem SameBut.setPc (h : SameBut ps s t) (w : Word) : SameBut ps s (t.setPc w) :=
  h.trans fun p _ => by cases p <;> simp [Part.same]

theorem SameBut.setV (h : SameBut ps s t) (x : Reg) (b : Byte) (hp : Part.regs ∈ ps) : SameBut ps s (t.setV x b) :=
  h.trans fun p hn => by
    cases p <;> first | exact absurd hp hn | simp [Part.same]

theorem SameBut.setI (h : SameBut ps s t) (w : Word) (hp : Part.index ∈ ps) : SameBut ps s (t.setI w) :=
  h.trans fun p hn => by
    cases p <;> first | exact absurd hp hn | simp [Part.same]

theorem SameBut.setDt (h : SameBut ps s t) (b : Byte) (hp : Part.delayTimer ∈ ps) : SameBut ps s (t.setDt b) :=
  h.trans fun p hn => by
    cases p <;> first | exact absurd hp hn | simp [Part.same]

theorem SameBut.setSt (h : SameBut ps s t) (b : Byte) (hp : Part.soundTimer ∈ ps) : SameBut ps s (t.setSt b) :=
  h.trans fun p hn => by
    cases p <;> first | exact absurd hp hn | simp [Part.same]

theorem SameBut.setRedraw (h : SameBut ps s t) (b : Bool) (hp : Part.redrawFlag ∈ ps) : SameBut ps s (t.setRedraw b) :=
  h.trans fun p hn => by
    cases p <;> first | exact absurd hp hn | simp [Part.same]

theorem SameBut.setKey (h : SameBut ps s t) (k : Key) (b : Bool) (hp : Part.keys ∈ ps) : SameBut ps s (t.setKey k b) :=
  h.trans fun p hn => by
    cases p <;> first | exact absurd hp hn | simp [Part.same]

theorem SameBut.setStatus (h : SameBut ps s t) (st : Status) (hp : Part.status ∈ ps) : SameBut ps s (t.setStatus st) :=
  h.trans fun p hn => by
    cases p <;> first | exact absurd hp hn | simp [Part.same]

theorem SameBut.setFb (h : SameBut ps s t) (fb : Framebuffer) (hp : Part.display ∈ ps) : SameBut ps s (t.setFb fb) :=
  h.trans fun p hn => by
    cases p <;> first | exact absurd hp hn | simp [Part.same]

theorem SameBut.setStack (h : SameBut ps s t) (k : Vector Word 16) (sp : Fin 17) (hp : Part.stack ∈ ps) : SameBut ps s (t.setStack k sp) :=
  h.trans fun p hn => by
    cases p <;> first | exact absurd hp hn | simp [Part.same]

theorem SameBut.setRegs (h : SameBut ps s t) (v : Vector Byte 16) (hp : Part.regs ∈ ps) : SameBut ps s (t.setRegs v) :=
  h.trans fun p hn => by
    cases p <;> first | exact absurd hp hn | simp [Part.same]

theorem SameBut.countDraw (h : SameBut ps s t) (hp : Part.draws ∈ ps) : SameBut ps s t.countDraw :=
  h.trans fun p hn => by
    cases p <;> first | exact absurd hp hn | simp [Part.same]

theorem SameBut.storeBytes (h : SameBut ps s t) (base : Nat) (bs : List Byte) (hp : Part.memory ∈ ps) : SameBut ps s (t.storeBytes base bs) :=
  h.trans fun p hn => by
    cases p <;> first | exact absurd hp hn | simp [Part.same, State.storeBytes]

/-! ### Registers -/

theorem RegsSameBut.of_getV {xs : List Reg} (h : ∀ r, r ∉ xs → t.getV r = s.getV r) : RegsSameBut xs s t := h

/-- Adding 2 to `PC` moves it by two bytes. -/
theorem pcMoves_two : PcMoves 2 s (t.setPc (s.pc + 2)) := by simp [PcMoves]

/-- Adding 4 to `PC` moves it by four bytes. -/
theorem pcMoves_four : PcMoves 4 s (t.setPc (s.pc + 4)) := by simp [PcMoves]

end Sys2Proof.Machine
end

