-- ==== Sys2Proof/Laws/PerInstr.lean ====
section
/-! SUPPORT. The per-instruction family `MatchesRow`: the word of a well-formed instruction has, in every fixed
field of the instruction's row of spec/opcode_table.json, the value the row gives (spec/30_encoding.md R62, R66). -/

namespace Sys2Proof.Laws

/-- The encoded word holds the row's fixed bits. -/
def MatchesRow.Statement (i : Instr) : Prop :=
  WellFormed i = true → ∀ f ∈ i.fixedFields, f.holds (encode i)

theorem fixedFamily_holds {f : Nat} {op : Word} (h : op.toNat / 4096 = f) :
    ∀ g ∈ fixedFamily f, g.holds op := by
  have := op.isLt
  simp only [fixedFamily, List.mem_singleton, forall_eq, FixedField.holds]
  omega

theorem fixedXY_holds {f n : Nat} {op : Word} (h : op.toNat / 4096 = f) (hn : op.toNat % 16 = n) :
    ∀ g ∈ fixedXY f n, g.holds op := by
  have := op.isLt
  simp only [fixedXY, List.mem_cons, List.not_mem_nil, or_false, forall_eq_or_imp, forall_eq, FixedField.holds]
  omega

theorem fixedX_holds {f low : Nat} {op : Word} (h : op.toNat / 4096 = f) (hl : op.toNat % 256 = low) :
    ∀ g ∈ fixedX f low, g.holds op := by
  have := op.isLt
  simp only [fixedX, List.mem_cons, List.not_mem_nil, or_false, forall_eq_or_imp, forall_eq, FixedField.holds]
  omega

theorem matches_A (f : Nat) (nnn : Addr12) (hf : f < 16) : ∀ g ∈ fixedFamily f, g.holds (encodeA f nnn) := by
  have := nnn.isLt
  exact fixedFamily_holds (by rw [encodeA_toNat _ _ hf]; omega)

theorem matches_XI (f : Nat) (x : Reg) (nn : Byte) (hf : f < 16) :
    ∀ g ∈ fixedFamily f, g.holds (encodeXI f x nn) := by
  have := nn.isLt
  have := x.isLt
  exact fixedFamily_holds (by rw [encodeXI_toNat _ _ _ hf]; omega)

theorem matches_XY (f : Nat) (x y : Reg) (n : Nat) (hf : f < 16) (hn : n < 16) :
    ∀ g ∈ fixedXY f n, g.holds (encodeXYN f x y n) := by
  have := x.isLt
  have := y.isLt
  exact fixedXY_holds (by rw [encodeXYN_toNat _ _ _ _ hf hn]; omega) (by rw [encodeXYN_toNat _ _ _ _ hf hn]; omega)

theorem matches_X (f : Nat) (x : Reg) (low : Nat) (hf : f < 16) (hl : low < 256) :
    ∀ g ∈ fixedX f low, g.holds (encodeX f x low) := by
  have := x.isLt
  exact fixedX_holds (by rw [encodeX_toNat _ _ _ hf hl]; omega) (by rw [encodeX_toNat _ _ _ hf hl]; omega)

theorem MatchesRow.cls : Statement .cls := fun _ => by
  simp [Instr.fixedFields, FixedField.holds, encode]
theorem MatchesRow.ret : Statement .ret := fun _ => by
  simp [Instr.fixedFields, FixedField.holds, encode]
theorem MatchesRow.jpNnn (nnn : Addr12) : Statement (.jpNnn nnn) := fun _ => matches_A 0x1 nnn (by decide)
theorem MatchesRow.callNnn (nnn : Addr12) : Statement (.callNnn nnn) := fun _ => matches_A 0x2 nnn (by decide)
theorem MatchesRow.seVxNn (x : Reg) (nn : Byte) : Statement (.seVxNn x nn) := fun _ => matches_XI 0x3 x nn (by decide)
theorem MatchesRow.sneVxNn (x : Reg) (nn : Byte) : Statement (.sneVxNn x nn) := fun _ => matches_XI 0x4 x nn (by decide)
theorem MatchesRow.seVxVy (x y : Reg) : Statement (.seVxVy x y) := fun _ => matches_XY 0x5 x y 0x0 (by decide) (by decide)
theorem MatchesRow.ldVxNn (x : Reg) (nn : Byte) : Statement (.ldVxNn x nn) := fun _ => matches_XI 0x6 x nn (by decide)
theorem MatchesRow.addVxNn (x : Reg) (nn : Byte) : Statement (.addVxNn x nn) := fun _ => matches_XI 0x7 x nn (by decide)
theorem MatchesRow.ldVxVy (x y : Reg) : Statement (.ldVxVy x y) := fun _ => matches_XY 0x8 x y 0x0 (by decide) (by decide)
theorem MatchesRow.orVxVy (x y : Reg) : Statement (.orVxVy x y) := fun _ => matches_XY 0x8 x y 0x1 (by decide) (by decide)
theorem MatchesRow.andVxVy (x y : Reg) : Statement (.andVxVy x y) := fun _ => matches_XY 0x8 x y 0x2 (by decide) (by decide)
theorem MatchesRow.xorVxVy (x y : Reg) : Statement (.xorVxVy x y) := fun _ => matches_XY 0x8 x y 0x3 (by decide) (by decide)
theorem MatchesRow.addVxVy (x y : Reg) : Statement (.addVxVy x y) := fun _ => matches_XY 0x8 x y 0x4 (by decide) (by decide)
theorem MatchesRow.subVxVy (x y : Reg) : Statement (.subVxVy x y) := fun _ => matches_XY 0x8 x y 0x5 (by decide) (by decide)
theorem MatchesRow.shrVx (x y : Reg) : Statement (.shrVx x y) := fun _ => matches_XY 0x8 x y 0x6 (by decide) (by decide)
theorem MatchesRow.subnVxVy (x y : Reg) : Statement (.subnVxVy x y) := fun _ => matches_XY 0x8 x y 0x7 (by decide) (by decide)
theorem MatchesRow.shlVx (x y : Reg) : Statement (.shlVx x y) := fun _ => matches_XY 0x8 x y 0xE (by decide) (by decide)
theorem MatchesRow.sneVxVy (x y : Reg) : Statement (.sneVxVy x y) := fun _ => matches_XY 0x9 x y 0x0 (by decide) (by decide)
theorem MatchesRow.ldINnn (nnn : Addr12) : Statement (.ldINnn nnn) := fun _ => matches_A 0xA nnn (by decide)
theorem MatchesRow.jpV0Nnn (nnn : Addr12) : Statement (.jpV0Nnn nnn) := fun _ => matches_A 0xB nnn (by decide)
theorem MatchesRow.rndVxNn (x : Reg) (nn : Byte) : Statement (.rndVxNn x nn) := fun _ => matches_XI 0xC x nn (by decide)
theorem MatchesRow.drwVxVyN (x y : Reg) (n : Nat) : Statement (.drwVxVyN x y n) := fun h => by
  have hn : n < 16 := Nat.lt_succ_of_le (of_decide_eq_true h)
  have hx := x.isLt
  have hy := y.isLt
  exact fixedFamily_holds (by rw [encode, encodeXYN_toNat _ _ _ _ (by decide) hn]; omega)
theorem MatchesRow.skpVx (x : Reg) : Statement (.skpVx x) := fun _ => matches_X 0xE x 0x9E (by decide) (by decide)
theorem MatchesRow.sknpVx (x : Reg) : Statement (.sknpVx x) := fun _ => matches_X 0xE x 0xA1 (by decide) (by decide)
theorem MatchesRow.ldVxDt (x : Reg) : Statement (.ldVxDt x) := fun _ => matches_X 0xF x 0x07 (by decide) (by decide)
theorem MatchesRow.ldVxK (x : Reg) : Statement (.ldVxK x) := fun _ => matches_X 0xF x 0x0A (by decide) (by decide)
theorem MatchesRow.ldDtVx (x : Reg) : Statement (.ldDtVx x) := fun _ => matches_X 0xF x 0x15 (by decide) (by decide)
theorem MatchesRow.ldStVx (x : Reg) : Statement (.ldStVx x) := fun _ => matches_X 0xF x 0x18 (by decide) (by decide)
theorem MatchesRow.addIVx (x : Reg) : Statement (.addIVx x) := fun _ => matches_X 0xF x 0x1E (by decide) (by decide)
theorem MatchesRow.ldFVx (x : Reg) : Statement (.ldFVx x) := fun _ => matches_X 0xF x 0x29 (by decide) (by decide)
theorem MatchesRow.ldBVx (x : Reg) : Statement (.ldBVx x) := fun _ => matches_X 0xF x 0x33 (by decide) (by decide)
theorem MatchesRow.ldMemVx (x : Reg) : Statement (.ldMemVx x) := fun _ => matches_X 0xF x 0x55 (by decide) (by decide)
theorem MatchesRow.ldVxMem (x : Reg) : Statement (.ldVxMem x) := fun _ => matches_X 0xF x 0x65 (by decide) (by decide)

end Sys2Proof.Laws
end

