-- ==== Sys2Proof/Laws/Step.lean ====
section
/-! SUPPORT. The next states of the meanings that guard a range, what an instruction can do to the status, and
all that a step of a running machine can do. -/

namespace Sys2Proof.Machine

variable {s t : State} {i : Instr}

/-! ### Immediates and timers -/

@[simp] theorem target12_toNat (nnn : Addr12) : (target12 nnn).toNat = nnn.toNat := by
  have := nnn.isLt
  simp only [target12, BitVec.toNat_setWidth]
  omega

@[simp] theorem zext16_toNat (b : Byte) : (zext16 b).toNat = b.toNat := by
  have := b.isLt
  simp only [zext16, BitVec.toNat_setWidth]
  omega

theorem countDown_toNat (b : Byte) : (countDown b).toNat = b.toNat - 1 := by
  have hb := b.isLt
  unfold countDown
  split
  · rename_i h
    subst h
    rfl
  · rename_i h
    have : b.toNat ≠ 0 := fun e => h (BitVec.eq_of_toNat_eq (by simpa using e))
    have one : (1 : Byte).toNat = 1 := rfl
    rw [BitVec.toNat_sub, one]
    omega

/-! ### The meanings that guard a range -/

theorem exec_ldBVx_next (x : Reg) (h : s.base + 2 ≤ 0xFFF) :
    exec (.ldBVx x) s = .next ((s.storeBytes s.base (bcdDigits (s.getV x))).setPc (s.pc + 2)) := by
  simp only [exec, execLdBVx, writeBytes_ok (s := s) (bs := bcdDigits (s.getV x)) (base := s.base)
    (by simp only [rangeValid, length_bcdDigits]; omega), advance_eq, State.pc_storeBytes]

theorem exec_ldBVx_halts (x : Reg) (h : 0xFFF < s.base + 2) :
    exec (.ldBVx x) s = .next (s.setStatus (.halted .outOfRangeAccess)) := by
  simp only [exec, execLdBVx, writeBytes_error (s := s) (bs := bcdDigits (s.getV x)) (base := s.base)
    (by simp only [rangeValid, length_bcdDigits]; omega), raise_eq]

theorem exec_ldMemVx_next (x : Reg) (h : s.base + x.val ≤ 0xFFF) :
    exec (.ldMemVx x) s = .next ((s.storeBytes s.base (s.lowRegs x)).setPc (s.pc + 2)) := by
  simp only [exec, execLdMemVx, writeBytes_ok (s := s) (bs := s.lowRegs x) (base := s.base)
    (by simp only [rangeValid, State.length_lowRegs]; omega), advance_eq, State.pc_storeBytes]

theorem exec_ldMemVx_halts (x : Reg) (h : 0xFFF < s.base + x.val) :
    exec (.ldMemVx x) s = .next (s.setStatus (.halted .outOfRangeAccess)) := by
  simp only [exec, execLdMemVx, writeBytes_error (s := s) (bs := s.lowRegs x) (base := s.base)
    (by simp only [rangeValid, State.length_lowRegs]; omega), raise_eq]

theorem exec_ldVxMem_next (x : Reg) (h : s.base + x.val ≤ 0xFFF) :
    exec (.ldVxMem x) s =
      .next ((s.loadRegs ((List.range (x.val + 1)).map fun j => s.byteAt (s.base + j))).setPc (s.pc + 2)) := by
  simp only [exec, execLdVxMem, readBytes_ok (s := s) (base := s.base) (n := x.val + 1)
    (by simp only [rangeValid]; omega), advance_eq, State.loadRegs_eq, State.setRegs_pc]

theorem exec_ldVxMem_halts (x : Reg) (h : 0xFFF < s.base + x.val) :
    exec (.ldVxMem x) s = .next (s.setStatus (.halted .outOfRangeAccess)) := by
  simp only [exec, execLdVxMem, readBytes_error (s := s) (base := s.base) (n := x.val + 1)
    (by simp only [rangeValid]; omega), raise_eq]

/-- The canvas after the sprite of `n` rows at `I` is drawn at `(V[x], V[y])`. -/
def spriteCanvas (s : State) (x y : Reg) (n : Nat) : Canvas :=
  drawSprite (s.fb, false) (s.getV x).toNat (s.getV y).toNat ((List.range n).map fun j => s.byteAt (s.base + j))

theorem exec_drw_next (x y : Reg) {n : Nat} (h : rangeValid s.base n) :
    exec (.drwVxVyN x y n) s =
      .next ((((s.setFb (spriteCanvas s x y n).1).setV regF (collisionFlag (spriteCanvas s x y n).2)).setRedraw
        true).setPc (s.pc + 2)) := by
  simp only [exec, execDrwVxVyN, readBytes_ok h, advance_eq, State.setRedraw_pc, State.setV_pc, State.setFb_pc,
    spriteCanvas]

theorem exec_drw_halts (x y : Reg) {n : Nat} (h : ¬rangeValid s.base n) :
    exec (.drwVxVyN x y n) s = .next (s.setStatus (.halted .outOfRangeAccess)) := by
  simp only [exec, execDrwVxVyN, readBytes_error h, raise_eq]

/-- The pixels of the rows read at `I` are the covered pixels of R162. -/
theorem inRows_iff_covered (n x0 y0 : Nat) (px : Fin 64) (py : Fin 32) :
    InRows x0 y0 ((List.range n).map fun j => s.byteAt (s.base + j)) px py ↔
      CoveredBySprite s s.base n x0 y0 px py := by
  simp only [InRows, InPart, CoveredBySprite, List.length_map, List.length_range, List.getElem_map,
    List.getElem_range]
  constructor
  · rintro ⟨row, h, hy, col, hc, hb, hx⟩
    exact ⟨row, col, h, hc, hb, hx, hy⟩
  · rintro ⟨row, col, h, hc, hb, hx, hy⟩
    exact ⟨row, h, hy, col, hc, hb, hx⟩

/-! ### The status -/

/-- The guard of the instruction fails, and the fault it raises (R190). -/
def GuardFails (i : Instr) (s : State) (k : HaltReason) : Prop :=
  (∃ nnn, i = .callNnn nnn ∧ s.sp.val = 16 ∧ k = .stackOverflow) ∨
  (i = .ret ∧ s.sp.val = 0 ∧ k = .stackUnderflow) ∨
  (∃ x y n, i = .drwVxVyN x y n ∧ 0 < n ∧ 0xFFF < s.base + n - 1 ∧ k = .outOfRangeAccess) ∨
  (∃ x, i = .ldBVx x ∧ 0xFFF < s.base + 2 ∧ k = .outOfRangeAccess) ∨
  (∃ x, (i = .ldMemVx x ∨ i = .ldVxMem x) ∧ 0xFFF < s.base + x.val ∧ k = .outOfRangeAccess)

/-- A failing guard raises its fault and does nothing else. -/
theorem exec_of_guardFails {k : HaltReason} (h : GuardFails i s k) : exec i s = .next (s.setStatus (.halted k)) := by
  rcases h with ⟨nnn, rfl, hs, rfl⟩ | ⟨rfl, hs, rfl⟩ | ⟨x, y, n, rfl, h0, h, rfl⟩ | ⟨x, rfl, h, rfl⟩ |
    ⟨x, rfl | rfl, h, rfl⟩
  · rcases callTo_cases (s := s) (target12 nnn) with ⟨h', -⟩ | ⟨-, h'⟩
    · omega
    · exact h'
  · rcases returnFrom_cases (s := s) with ⟨h', -⟩ | ⟨-, h'⟩
    · omega
    · exact h'
  · exact exec_drw_halts x y (by simp only [rangeValid]; omega)
  · exact exec_ldBVx_halts x h
  · exact exec_ldMemVx_halts x h
  · exact exec_ldVxMem_halts x h

/-- All an instruction can do to the status: keep it, enter the wait, or raise the fault of its guard with no
other effect. -/
theorem exec_status (h : exec i s = .next t) :
    (t.status = s.status ∧ ∀ x, i ≠ .ldVxK x) ∨ (∃ x, i = .ldVxK x ∧ t = s.setStatus (.waitingForKey x)) ∨
      ∃ k, t = s.setStatus (.halted k) ∧ GuardFails i s k := by
  by_cases hg : ∃ k, GuardFails i s k
  · obtain ⟨k, hk⟩ := hg
    rw [exec_of_guardFails hk] at h
    cases h
    exact .inr (.inr ⟨k, rfl, hk⟩)
  · simp only [GuardFails, not_exists, not_or] at hg
    cases i
    case ret =>
      rcases returnFrom_cases (s := s) with ⟨_, h'⟩ | ⟨h1, -⟩
      · rw [show exec .ret s = returnFrom s from rfl, h'] at h
        cases h
        exact .inl ⟨rfl, by simp⟩
      · exact absurd ⟨rfl, h1, rfl⟩ (hg _).2.1
    case callNnn nnn =>
      rcases callTo_cases (s := s) (target12 nnn) with ⟨_, h'⟩ | ⟨h1, -⟩
      · rw [show exec (.callNnn nnn) s = callTo (target12 nnn) s from rfl, h'] at h
        cases h
        exact .inl ⟨rfl, by simp⟩
      · exact absurd ⟨rfl, h1, rfl⟩ ((hg _).1 nnn)
    case drwVxVyN x y n =>
      have := (hg .outOfRangeAccess).2.2.1 x y n
      rw [exec_drw_next x y (by simp only [rangeValid]; by_contra hc; exact this ⟨rfl, by omega, by omega, rfl⟩)] at h
      cases h
      exact .inl ⟨rfl, by simp⟩
    case ldBVx x =>
      have := (hg .outOfRangeAccess).2.2.2.1 x
      rw [exec_ldBVx_next x (by by_contra hc; exact this ⟨rfl, by omega, rfl⟩)] at h
      cases h
      exact .inl ⟨rfl, by simp⟩
    case ldMemVx x =>
      have := (hg .outOfRangeAccess).2.2.2.2 x
      rw [exec_ldMemVx_next x (by by_contra hc; exact this ⟨.inl rfl, by omega, rfl⟩)] at h
      cases h
      exact .inl ⟨rfl, by simp⟩
    case ldVxMem x =>
      have := (hg .outOfRangeAccess).2.2.2.2 x
      rw [exec_ldVxMem_next x (by by_contra hc; exact this ⟨.inr rfl, by omega, rfl⟩)] at h
      cases h
      exact .inl ⟨rfl, by simp⟩
    case ldVxK x =>
      cases h
      exact .inr (.inl ⟨x, rfl, rfl⟩)
    all_goals
      cases h
      exact .inl ⟨rfl, by simp⟩

/-- All a step of a running machine can do. -/
theorem step_running (hs : s.status = .running) (h : step s = .next t) :
    (∃ k, fetchDecode s = .error k ∧ nextInstr s = none ∧ t = s.setStatus (.halted k)) ∨
      ∃ i, fetchDecode s = .ok i ∧ nextInstr s = some i ∧ exec i s = .next t := by
  simp only [step, hs] at h
  split at h
  · rename_i i hi
    exact .inr ⟨i, hi, by simp [nextInstr, hs, hi, Except.toOption], h⟩
  · rename_i k hk
    cases h
    exact .inl ⟨k, hk, by simp [nextInstr, hs, hk, Except.toOption], rfl⟩

/-- All a step of a waiting machine can do. -/
theorem step_waiting {x : Reg} (hs : s.status = .waitingForKey x) (h : step s = .next t) :
    (∃ k, lowestKeyDown s.key = some k ∧
        t = ((s.setV x (BitVec.ofNat 8 k.val)).setStatus .running).setPc (s.pc + 2)) ∨
      (lowestKeyDown s.key = none ∧ t = s) := by
  simp only [step, hs] at h
  rcases pollKeypad_cases (s := s) x with ⟨k, hk, h'⟩ | ⟨hk, h'⟩ <;> rw [h'] at h <;> cases h
  · exact .inl ⟨k, hk, rfl⟩
  · exact .inr ⟨hk, rfl⟩

/-- A step of a halted machine leaves it as it is. -/
theorem step_halted {k : HaltReason} (hs : s.status = .halted k) (h : step s = .next t) : t = s := by
  simp only [step, hs] at h
  cases h
  rfl

end Sys2Proof.Machine
end

