-- ==== Sys2Proof/Tests/Slice0.lean ====
section
/-! SUPPORT. The model's own tests. Words are written out from the layouts of spec/30_encoding.md R62; expected
results are those of spec/95_test_vectors.md (parts 1 and 2, each theorem names its row) or of the examples in the
rules. The witnesses at the end show, for every statement with hypotheses, that they can be met together. -/

namespace Sys2Proof.Tests

open Sys2Proof.Machine

/-! ### Helpers -/

/-- The step of `s` with the word `w` placed where it fetches. -/
def runWord (w : Nat) (s : State) : Result := step (s.withFetchWord 16 w)

/-- The outcome is a next state of which `p` holds. -/
def gives (r : Result) (p : State → Bool) : Bool :=
  match r with
  | .next t => p t
  | .fault _ | .refused _ => false

/-- Reset state with one register set. -/
def one (x : Reg) (b : Byte) : State := State.reset.setV x b

/-- Reset state with two registers set. -/
def two (x : Reg) (b : Byte) (y : Reg) (c : Byte) : State := (one x b).setV y c

/-- Reset state with one key down. -/
def keyed (k : Key) : State := State.reset.setKey k true

/-- Reset state with `SP = n` and one stack entry written. -/
def stacked (n : Fin 17) (j : Fin 16) (w : Word) : State :=
  State.reset.setStack ((Vector.replicate 16 0).set j w) n

/-- The pixels that are set, row by row. -/
def lit (s : State) : List (Nat × Nat) :=
  (List.finRange 32).flatMap fun y => (List.finRange 64).filterMap fun x =>
    if s.pixel x y then some (x.val, y.val) else none

/-! ### WellFormed refuses an ill-formed term (R61: a height is 0 to 15) -/

theorem test_height_sixteen_is_ill_formed : WellFormed (.drwVxVyN 0 1 16) = false := by decide
theorem test_height_fifteen_is_well_formed : WellFormed (.drwVxVyN 0 1 15) = true := by decide

/-! ### Decoding, a written-out word for every constructor (R62, R66) -/

theorem test_decode_cls : decodeTableWord 16 0b0000000011100000 = some .cls := by decide
theorem test_decode_ret : decodeTableWord 16 0b0000000011101110 = some .ret := by decide
theorem test_decode_jpNnn : decodeTableWord 16 0b0001101010111100 = some (.jpNnn 0xABC) := by decide
theorem test_decode_callNnn : decodeTableWord 16 0b0010001101000101 = some (.callNnn 0x345) := by decide
theorem test_decode_seVxNn : decodeTableWord 16 0b0011101001000010 = some (.seVxNn 10 0x42) := by decide
theorem test_decode_sneVxNn : decodeTableWord 16 0b0100101001000010 = some (.sneVxNn 10 0x42) := by decide
theorem test_decode_seVxVy : decodeTableWord 16 0b0101101010110000 = some (.seVxVy 10 11) := by decide
theorem test_decode_ldVxNn : decodeTableWord 16 0b0110101001111111 = some (.ldVxNn 10 0x7F) := by decide
theorem test_decode_addVxNn : decodeTableWord 16 0b0111101000000011 = some (.addVxNn 10 3) := by decide
theorem test_decode_ldVxVy : decodeTableWord 16 0b1000101010110000 = some (.ldVxVy 10 11) := by decide
theorem test_decode_orVxVy : decodeTableWord 16 0b1000101010110001 = some (.orVxVy 10 11) := by decide
theorem test_decode_andVxVy : decodeTableWord 16 0b1000101010110010 = some (.andVxVy 10 11) := by decide
theorem test_decode_xorVxVy : decodeTableWord 16 0b1000101010110011 = some (.xorVxVy 10 11) := by decide
theorem test_decode_addVxVy : decodeTableWord 16 0b1000101010110100 = some (.addVxVy 10 11) := by decide
theorem test_decode_subVxVy : decodeTableWord 16 0b1000101010110101 = some (.subVxVy 10 11) := by decide
theorem test_decode_shrVx : decodeTableWord 16 0b1000101010110110 = some (.shrVx 10 11) := by decide
theorem test_decode_subnVxVy : decodeTableWord 16 0b1000101010110111 = some (.subnVxVy 10 11) := by decide
theorem test_decode_shlVx : decodeTableWord 16 0b1000101010111110 = some (.shlVx 10 11) := by decide
theorem test_decode_sneVxVy : decodeTableWord 16 0b1001101010110000 = some (.sneVxVy 10 11) := by decide
theorem test_decode_ldINnn : decodeTableWord 16 0b1010001100000001 = some (.ldINnn 0x301) := by decide
theorem test_decode_jpV0Nnn : decodeTableWord 16 0b1011001100000000 = some (.jpV0Nnn 0x300) := by decide
theorem test_decode_rndVxNn : decodeTableWord 16 0b1100101000001111 = some (.rndVxNn 10 0x0F) := by decide
theorem test_decode_drwVxVyN : decodeTableWord 16 0b1101101010110010 = some (.drwVxVyN 10 11 2) := by decide
theorem test_decode_skpVx : decodeTableWord 16 0b1110010110011110 = some (.skpVx 5) := by decide
theorem test_decode_sknpVx : decodeTableWord 16 0b1110010110100001 = some (.sknpVx 5) := by decide
theorem test_decode_ldVxDt : decodeTableWord 16 0b1111010000000111 = some (.ldVxDt 4) := by decide
theorem test_decode_ldVxK : decodeTableWord 16 0b1111001100001010 = some (.ldVxK 3) := by decide
theorem test_decode_ldDtVx : decodeTableWord 16 0b1111010000010101 = some (.ldDtVx 4) := by decide
theorem test_decode_ldStVx : decodeTableWord 16 0b1111010000011000 = some (.ldStVx 4) := by decide
theorem test_decode_addIVx : decodeTableWord 16 0b1111000100011110 = some (.addIVx 1) := by decide
theorem test_decode_ldFVx : decodeTableWord 16 0b1111001000101001 = some (.ldFVx 2) := by decide
theorem test_decode_ldBVx : decodeTableWord 16 0b1111000000110011 = some (.ldBVx 0) := by decide
theorem test_decode_ldMemVx : decodeTableWord 16 0b1111001001010101 = some (.ldMemVx 2) := by decide
theorem test_decode_ldVxMem : decodeTableWord 16 0b1111001001100101 = some (.ldVxMem 2) := by decide

/-- Table 2.1 and R68: the unknown words of every family that has some. -/
theorem test_unknown_words :
    [0x0000, 0x00E1, 0x0123, 0x5121, 0x912F, 0x8128, 0x812D, 0x812F, 0xE000, 0xE19F, 0xE1A0, 0xF000, 0xF175,
      0xF185, 0xF030].all (fun w => (decodeTableWord 16 w).isNone) = true := by decide

/-- Fewer than two bytes are no instruction (R60). -/
theorem test_truncated : (match decode [0x00] with | .error .truncated => true | _ => false) = true := by decide

/-! ### Fetch and decode (table 2.1) -/

theorem test_fetch_odd_pc :
    gives (runWord 0x6A11 (State.reset.setPc 0x201)) (fun t => t.getV 10 == 0x11 && t.pc == 0x203) = true := by
  decide
theorem test_fetch_last_word :
    gives (runWord 0x6A11 (State.reset.setPc 0xFFE)) (fun t => t.getV 10 == 0x11 && t.pc == 0x1000) = true := by
  decide
theorem test_fetch_past_the_end :
    gives (step (State.reset.setPc 0xFFF)) (fun t => t == (State.reset.setPc 0xFFF).setStatus (.halted .outOfRangeAccess))
      = true := by decide
theorem test_unknown_halts :
    gives (runWord 0x0123 State.reset) (fun t => t.status == .halted .unknownOpcode && t.pc == 0x200) = true := by
  decide
/-- Table 2.7, first row: an empty ROM halts at once. -/
theorem test_reset_first_step :
    gives (step State.reset) (fun t => t.status == .halted .unknownOpcode && t.pc == 0x200) = true := by decide

/-! ### Control flow (table 2.2) -/

theorem test_ret :
    gives (runWord 0x00EE (stacked 1 0 0x0ABC)) (fun t => t.pc == 0x0ABC && t.sp == 0) = true := by decide
theorem test_ret_empty :
    gives (runWord 0x00EE State.reset) (fun t => t.status == .halted .stackUnderflow && t.pc == 0x200 && t.sp == 0)
      = true := by decide
theorem test_jp : gives (runWord 0x1FFF State.reset) (fun t => t.pc == 0x0FFF) = true := by decide
theorem test_call :
    gives (runWord 0x2345 (stacked 15 0 0)) (fun t => t.pc == 0x345 && t.sp == 16 && t.stack[15] == 0x202) = true := by
  decide
theorem test_call_full :
    gives (runWord 0x2345 (stacked 16 3 0x208))
      (fun t => t.status == .halted .stackOverflow && t.pc == 0x200 && t.sp == 16 && t.stack[3] == 0x208) = true := by
  decide
theorem test_se_nn_taken : gives (runWord 0x3A42 (one 10 0x42)) (fun t => t.pc == 0x204) = true := by decide
theorem test_se_nn_not_taken : gives (runWord 0x3A42 (one 10 0x43)) (fun t => t.pc == 0x202) = true := by decide
theorem test_sne_nn_taken : gives (runWord 0x4A42 (one 10 0x43)) (fun t => t.pc == 0x204) = true := by decide
theorem test_sne_nn_not_taken : gives (runWord 0x4A42 (one 10 0x42)) (fun t => t.pc == 0x202) = true := by decide
theorem test_se_taken : gives (runWord 0x5AB0 (two 10 7 11 7)) (fun t => t.pc == 0x204) = true := by decide
theorem test_se_not_taken : gives (runWord 0x5AB0 (two 10 7 11 8)) (fun t => t.pc == 0x202) = true := by decide
theorem test_sne_taken : gives (runWord 0x9AB0 (two 10 7 11 8)) (fun t => t.pc == 0x204) = true := by decide
theorem test_sne_not_taken : gives (runWord 0x9AB0 (two 10 7 11 7)) (fun t => t.pc == 0x202) = true := by decide
theorem test_jp_v0 : gives (runWord 0xB300 (one 0 0x10)) (fun t => t.pc == 0x310) = true := by decide
theorem test_jp_v0_above_memory : gives (runWord 0xBFFF (one 0 0xFF)) (fun t => t.pc == 0x10FE) = true := by decide

/-! ### ALU (table 2.3, E1 to E3) -/

theorem test_ld_nn :
    gives (runWord 0x6A7F State.reset) (fun t => t.getV 10 == 0x7F && t.pc == 0x202) = true := by decide
theorem test_add_nn_wraps_without_flag :
    gives (runWord 0x7A03 (two 10 0xFE 15 1)) (fun t => t.getV 10 == 1 && t.getV 15 == 1) = true := by decide
theorem test_ld_vy : gives (runWord 0x8AB0 (one 11 0x5A)) (fun t => t.getV 10 == 0x5A && t.getV 11 == 0x5A) = true := by
  decide
theorem test_or :
    gives (runWord 0x8AB1 (two 10 0xF0 11 0x0F)) (fun t => t.getV 10 == 0xFF && t.getV 15 == 0) = true := by decide
theorem test_and : gives (runWord 0x8AB2 (two 10 0xF0 11 0x3C)) (fun t => t.getV 10 == 0x30) = true := by decide
theorem test_xor : gives (runWord 0x8AB3 (two 10 0xF0 11 0x3C)) (fun t => t.getV 10 == 0xCC) = true := by decide
theorem test_add_carries :
    gives (runWord 0x8AB4 (two 10 0xFF 11 0x01)) (fun t => t.getV 10 == 0 && t.getV 15 == 1) = true := by decide
theorem test_add_flag_overwritten :
    gives (runWord 0x8FB4 (two 15 0x01 11 0xFF)) (fun t => t.getV 15 == 0) = true := by decide
theorem test_sub_borrows :
    gives (runWord 0x8AB5 (two 10 0x02 11 0x03)) (fun t => t.getV 10 == 0xFF && t.getV 15 == 0) = true := by decide
theorem test_sub_flag_as_operand :
    gives (runWord 0x8AF5 (two 10 0x05 15 0x03)) (fun t => t.getV 10 == 0x02 && t.getV 15 == 1) = true := by decide
theorem test_shr_ignores_y :
    gives (runWord 0x8AB6 (two 10 0x05 11 0xFF)) (fun t => t.getV 10 == 0x02 && t.getV 15 == 1 && t.getV 11 == 0xFF)
      = true := by decide
theorem test_shr_flag_overwritten : gives (runWord 0x8F06 (one 15 0x06)) (fun t => t.getV 15 == 0x03) = true := by decide
theorem test_subn_borrows :
    gives (runWord 0x8AB7 (two 10 0x03 11 0x02)) (fun t => t.getV 10 == 0xFF && t.getV 15 == 0) = true := by decide
theorem test_subn_equal :
    gives (runWord 0x8AB7 (two 10 0x07 11 0x07)) (fun t => t.getV 10 == 0 && t.getV 15 == 1) = true := by decide
theorem test_shl_drops_the_top :
    gives (runWord 0x8ABE (two 10 0x81 11 0x40)) (fun t => t.getV 10 == 0x02 && t.getV 15 == 1) = true := by decide
theorem test_shl_no_bit_out :
    gives (runWord 0x8ABE (two 10 0x7F 15 1)) (fun t => t.getV 10 == 0xFE && t.getV 15 == 0) = true := by decide

/-- `CA 00`: nothing can be said of the drawn byte, and the mask leaves nothing of it. -/
theorem test_rnd_masked :
    ∃ t, runWord 0xCA00 State.reset = .next t ∧ t.getV 10 = 0 ∧ t.pc = 0x202 ∧ t.draws = 1 :=
  ⟨_, rfl, BitVec.zero_and, rfl, rfl⟩

/-! ### Index register and memory (table 2.4) -/

theorem test_ld_i : gives (runWord 0xAFFF State.reset) (fun t => t.i == 0x0FFF) = true := by decide
theorem test_add_i_past_memory :
    gives (runWord 0xFA1E ((one 10 1).setI 0x0FFF)) (fun t => t.i == 0x1000 && t.status == .running) = true := by decide
theorem test_add_i_wraps :
    gives (runWord 0xFA1E ((two 10 0xFF 15 1).setI 0xFFF0)) (fun t => t.i == 0x00EF && t.getV 15 == 1) = true := by
  decide
theorem test_glyph : gives (runWord 0xFA29 (one 10 0x0A)) (fun t => t.i == 0x0032) = true := by decide
theorem test_glyph_beyond : gives (runWord 0xFA29 (one 10 0xFF)) (fun t => t.i == 0x04FB) = true := by decide
theorem test_bcd :
    gives (runWord 0xFA33 ((one 10 156).setI 0x300))
      (fun t => t.byteAt 0x300 == 1 && t.byteAt 0x301 == 5 && t.byteAt 0x302 == 6 && t.i == 0x300) = true := by decide
theorem test_bcd_past_the_end :
    gives (runWord 0xFA33 ((one 10 0xFF).setI 0x0FFE))
      (fun t => t.status == .halted .outOfRangeAccess && t.byteAt 0xFFE == 0 && t.pc == 0x200) = true := by decide
theorem test_store_into_code :
    gives (runWord 0xF055 ((one 0 0x12).setI 0x0200)) (fun t => t.byteAt 0x200 == 0x12 && t.byteAt 0x201 == 0x55)
      = true := by decide
theorem test_store_all :
    gives (runWord 0xFF55 ((two 0 0xAB 15 0xCD).setI 0x0FF0))
      (fun t => t.byteAt 0xFF0 == 0xAB && t.byteAt 0xFFF == 0xCD && t.i == 0x0FF0 && t.pc == 0x202) = true := by decide
theorem test_load_font :
    gives (runWord 0xF165 (one 2 0x77))
      (fun t => t.getV 0 == 0xF0 && t.getV 1 == 0x90 && t.getV 2 == 0x77 && t.i == 0) = true := by decide
theorem test_load_not_wrapped :
    gives (runWord 0xF565 (State.reset.setI 0xFFFF)) (fun t => t.status == .halted .outOfRangeAccess) = true := by decide

/-! ### Display (table 2.5, E6) -/

/-- A state with one sprite byte at 0x300 and `I` there. -/
def spriteAt (b x y : Byte) : State := ((two 0 x 1 y).setI 0x300).storeBytes 0x300 [b]

theorem test_cls :
    gives (runWord 0x00E0 ((one 15 1).setFb (Vector.replicate 32 0xFF)))
      (fun t => t.fb == Vector.replicate 32 0 && t.redraw && t.getV 15 == 1) = true := by decide
theorem test_draw_bit_order :
    gives (runWord 0xD011 (spriteAt 0b10011001 0 0))
      (fun t => lit t == [(0, 0), (3, 0), (4, 0), (7, 0)] && t.getV 15 == 0 && t.redraw) = true := by decide
theorem test_draw_wraps_and_collides :
    gives (runWord 0xD011 ((spriteAt 0xC0 0xFF 0xFF).setFb
        (Framebuffer.toggle (Vector.replicate 32 0) 0 31)))
      (fun t => lit t == [(63, 31)] && t.getV 15 == 1) = true := by decide

/-! ### Keypad, timers and events (tables 2.6 and 2.7) -/

theorem test_skp_low_nibble :
    gives (runWord 0xEA9E ((keyed 7).setV 10 0x17)) (fun t => t.pc == 0x204) = true := by decide
theorem test_skp_up : gives (runWord 0xEA9E (one 10 0x07)) (fun t => t.pc == 0x202) = true := by decide
theorem test_sknp_down : gives (runWord 0xEAA1 ((keyed 7).setV 10 0x07)) (fun t => t.pc == 0x202) = true := by decide
theorem test_sknp_up : gives (runWord 0xEAA1 (one 10 0x07)) (fun t => t.pc == 0x204) = true := by decide
theorem test_wait_does_not_poll :
    gives (runWord 0xFA0A (keyed 3)) (fun t => t.status == .waitingForKey 10 && t.pc == 0x200 && t.getV 10 == 0)
      = true := by decide
theorem test_poll_lowest_key :
    gives (step (((keyed 9).setKey 3 true).setStatus (.waitingForKey 10)))
      (fun t => t.status == .running && t.pc == 0x202 && t.getV 10 == 3) = true := by decide
theorem test_poll_no_key :
    gives (step (State.reset.setStatus (.waitingForKey 10)))
      (fun t => t == State.reset.setStatus (.waitingForKey 10)) = true := by decide
theorem test_read_delay :
    gives (runWord 0xFA07 (State.reset.setDt 0x2A)) (fun t => t.getV 10 == 0x2A && t.dt == 0x2A) = true := by decide
theorem test_set_delay : gives (runWord 0xFA15 (one 10 0xFF)) (fun t => t.dt == 0xFF && t.st == 0) = true := by decide
theorem test_set_sound : gives (runWord 0xFA18 (one 10 0x01)) (fun t => t.st == 0x01 && t.dt == 0) = true := by decide

theorem test_tick_counts_down :
    gives (applyEvent .tick ((State.reset.setDt 0xFF).setSt 2)) (fun t => t.dt == 0xFE && t.st == 1) = true := by decide
theorem test_tick_stops_at_zero : gives (applyEvent .tick State.reset) (fun t => t == State.reset) = true := by decide
theorem test_tone_end :
    (toneEnd .tick (State.reset.setSt 1) && !toneEnd .tick (State.reset.setSt 2) && !toneEnd .tick State.reset) = true := by
  decide
theorem test_key_write :
    gives (applyEvent (.keyWrite 4 true) State.reset) (fun t => t == keyed 4) = true := by decide
theorem test_redraw_clear :
    gives (applyEvent .redrawClear (State.reset.setRedraw true)) (fun t => t == State.reset) = true := by decide
theorem test_reset_keeps_the_keys :
    gives (applyEvent (.reset [0x60, 0x05]) (((keyed 2).setDt 9).setStatus (.halted .stackOverflow)))
      (fun t => t.status == .running && t.dt == 0 && t.key == (keyed 2).key && t.byteAt 0x200 == 0x60 &&
        t.byteAt 0x201 == 0x05 && t.byteAt 0 == 0xF0 && t.pc == 0x200) = true := by decide
/-- R190: the code of a running machine is 0. -/
theorem test_fault_codes :
    (Status.running.reasonField == 0 && (Status.halted .unknownOpcode).reasonField == 4) = true := by decide
/-- Reading the outputs shows the status, the grid and the flag (R208). -/
theorem test_host_view : (hostView (State.reset.setRedraw true)).redraw = true := by decide

/-! ### Witnesses: states and operands that meet the hypotheses of the statements -/

/-- RomLoadReinitialisesEverythingButTheKeys, both clauses at the boundary, and its byte clauses. -/
theorem witness_rom :
    (List.replicate 3584 (1 : Byte)).length ≤ 3584 ∧ 3583 < (List.replicate 3584 (1 : Byte)).length ∧
      3584 < (List.replicate 3585 (1 : Byte)).length ∧ ([] : List Byte).length ≤ 3584 ∧
      ¬(0x200 ≤ 0x200 ∧ 0x200 < 0x200 + ([] : List Byte).length) := by
  simp only [List.length_replicate, List.length_nil]
  omega
/-- MemoryBusGuardsAndWritesOneCell, both clauses. -/
theorem witness_bus : (0xFFF : Nat) < 0x1000 ∧ (0xFFF : Nat) ≤ 0xFFF ∧ (0 : Nat) ≠ 0xFFF := by decide
/-- CanonicalMemoriesWithEqualReadsAreEqual. -/
theorem witness_canonical :
    Memory.wf [(0x300, 1), (0xFFF, 2)] defaultFont ∧
      ∀ a, Memory.read [(0x300, 1), (0xFFF, 2)] defaultFont a = Memory.read [(0x300, 1), (0xFFF, 2)] defaultFont a :=
  ⟨by decide, fun _ => rfl⟩
/-- DecodeOfEncodeIsTheInstruction. -/
theorem witness_encode : WellFormed (.drwVxVyN 15 0 15) = true := by decide
/-- EncodeOfDecodeIsTheWord. -/
theorem witness_decode : decodeOp 0x8AB6 = some (.shrVx 10 11) := by decide
/-- DecoderFollowsTheOpcodeTable: both sides hold of a word and its row. -/
theorem witness_table :
    (∀ f ∈ (Instr.shlVx 0 0).fixedFields, f.holds 0x8ABE) ∧
      ∃ j, decodeOp 0x8ABE = some j ∧ j.fixedFields = (Instr.shlVx 0 0).fixedFields :=
  ⟨by unfold FixedField.holds; decide, .shlVx 10 11, by decide, rfl⟩
/-- FetchReadsTheHighByteFirst. -/
theorem witness_fetch : (State.reset.setPc 0xFFE).pc.toNat ≤ 0xFFE := by decide
/-- StepRunsTheDecodedInstruction. -/
theorem witness_step_runs :
    let s := (State.reset.setPc 0xFFE).withFetchWord 16 0x6A11
    s.status = .running ∧ s.pc.toNat ≤ 0xFFE ∧
      decode [s.byteAt s.pc.toNat, s.byteAt (s.pc.toNat + 1)] = .ok (.ldVxNn 10 0x11, []) := ⟨by decide, by decide, rfl⟩
/-- HaltedStepChangesNothing, OnlyResetLeavesTheHaltedState. -/
theorem witness_halted :
    let s := (State.reset.setDt 5).setStatus (.halted .unknownOpcode)
    s.status = .halted .unknownOpcode ∧ (∃ t, applyEvent .tick s = .next t ∧ t.dt = 4) ∧
      ∀ rom, Event.tick ≠ .reset rom := ⟨by decide, ⟨_, rfl, by decide⟩, by simp⟩
/-- WaitingStepTakesTheLowestKeyDown, both clauses. -/
theorem witness_waiting :
    (State.reset.setStatus (.waitingForKey 10)).status = .waitingForKey 10 ∧
      (∀ k : Key, (State.reset.setStatus (.waitingForKey 10)).key[k] = false) ∧
      ((keyed 9).setKey 3 true).key[(3 : Key)] = true ∧
      ∀ j : Key, j < 3 → ((keyed 9).setKey 3 true).key[j] = false := by decide
/-- StatusMovesOnlyAsTheTableSays: each row of the table is taken by some step, the row of `Reset` included. -/
theorem witness_status :
    gives (runWord 0x00E0 State.reset) (fun t => t.status == .running) = true ∧
      gives (runWord 0xF30A State.reset) (fun t => t.status == .waitingForKey 3) = true ∧
      gives (runWord 0x00EE State.reset) (fun t => t.status == .halted .stackUnderflow) = true ∧
      gives (step (State.reset.setStatus (.waitingForKey 3))) (fun t => t.status == .waitingForKey 3) = true ∧
      gives (step ((keyed 0).setStatus (.waitingForKey 3))) (fun t => t.status == .running) = true ∧
      gives (step (State.reset.setStatus (.halted .stackOverflow))) (fun t => t.status == .halted .stackOverflow) = true ∧
      gives (applyEvent (.reset []) (State.reset.setStatus (.halted .stackOverflow))) (fun t => t.status == .running)
        = true := by decide
/-- FaultingStepChangesOnlyTheStatus, FaultsHappenExactlyWhereListed: each listed case halts, at its boundary. -/
theorem witness_faults :
    gives (step (State.reset.setPc 0x0FFF)) (fun t => t.status == .halted .outOfRangeAccess) = true ∧
      gives (runWord 0x5121 State.reset) (fun t => t.status == .halted .unknownOpcode) = true ∧
      gives (runWord 0x2300 (stacked 16 0 0)) (fun t => t.status == .halted .stackOverflow) = true ∧
      gives (runWord 0x00EE (stacked 0 0 0)) (fun t => t.status == .halted .stackUnderflow) = true ∧
      gives (runWord 0xD01F (State.reset.setI 0x0FF2)) (fun t => t.status == .halted .outOfRangeAccess) = true ∧
      gives (runWord 0xF033 (State.reset.setI 0x0FFE)) (fun t => t.status == .halted .outOfRangeAccess) = true ∧
      gives (runWord 0xFF55 (State.reset.setI 0x0FF1)) (fun t => t.status == .halted .outOfRangeAccess) = true ∧
      gives (runWord 0xFF65 (State.reset.setI 0x0FF1)) (fun t => t.status == .halted .outOfRangeAccess) = true := by
  decide
/-- FetchAndDecodeFaultsHalt, both clauses. -/
theorem witness_fetch_faults :
    State.reset.status = .running ∧ 0xFFF ≤ (State.reset.setPc 0xFFF).pc.toNat ∧ State.reset.pc.toNat ≤ 0xFFE ∧
      decodeOp (opcodeOf (State.reset.byteAt State.reset.pc.toNat) (State.reset.byteAt (State.reset.pc.toNat + 1))) =
        none := by decide
/-- InstructionsWriteOnlyTheirParts, InstructionsWriteOnlyTheirRegisters. -/
theorem witness_exec_next : ∃ t, exec (.addVxVy 10 11) (two 10 0xFF 11 1) = .next t ∧ t.getV 15 = 1 :=
  ⟨_, rfl, by decide⟩
/-- CallPushesTheNextAddress, CallOnAFullStackOverflows, ReturnPopsTheLatestEntry, CallThenReturnComesBack, at both
ends of `SP`. -/
theorem witness_stack :
    (stacked 0 0 0).sp.val = (0 : Fin 16).val ∧ (stacked 15 0 0).sp.val = (15 : Fin 16).val ∧
      (stacked 16 0 0).sp.val = 16 ∧ (stacked 1 0 0).sp.val = (0 : Fin 16).val + 1 ∧
      (stacked 16 0 0).sp.val = (15 : Fin 16).val + 1 ∧ (stacked 0 0 0).sp.val = 0 ∧ (stacked 15 0 0).sp.val < 16 := by
  decide
/-- CallThenReturnComesBack: after the call, a state with the same stack. -/
theorem witness_call_return :
    ∃ t u : State, exec (.callNnn 0x300) State.reset = .next t ∧ u = t.setV 5 7 ∧ u.stack = t.stack ∧ u.sp = t.sp :=
  ⟨_, _, rfl, rfl, rfl, rfl⟩
/-- AddRegistersSetsTheCarry, SubtractionsSetNoBorrow, ShiftsMoveOneBitIntoTheFlag. -/
theorem witness_flag_destination : (14 : Reg) ≠ regF := by decide
/-- BcdStoresThreeDigits, StoreRegistersFillsTheRange, LoadRegistersReadsTheRange, at the last range that fits. -/
theorem witness_ranges :
    (State.reset.setI 0xFFD).base + 2 ≤ 0xFFF ∧ (State.reset.setI 0xFF0).base + (15 : Reg).val ≤ 0xFFF ∧
      (State.reset.setI 0xFFF).base + (0 : Reg).val ≤ 0xFFF := by decide
/-- RangeFaultsHaveNoEffect, each clause at the first range that does not fit. -/
theorem witness_range_faults :
    (0 < 15 ∧ 0xFFF < (State.reset.setI 0xFF2).base + 15 - 1) ∧ 0xFFF < (State.reset.setI 0xFFE).base + 2 ∧
      0xFFF < (State.reset.setI 0xFF1).base + (15 : Reg).val := by decide
/-- StoreReachesTheNextFetch. -/
theorem witness_self_modifying :
    1 ≤ (1 : Reg).val ∧ (State.reset.setI 0x202).base = (State.reset.setI 0x202).pc.toNat + 2 ∧
      (State.reset.setI 0x202).base + (1 : Reg).val ≤ 0xFFF := by decide
/-- DrawTogglesExactlyTheCoveredPixels, DrawReportsTheCollision, DrawingTwiceRestoresTheScreen: the highest sprite
that fits, and no rows at an `I` outside memory. -/
theorem witness_draw :
    (0 : Reg) ≠ regF ∧ (1 : Reg) ≠ regF ∧ 15 ≤ 15 ∧ (15 = 0 ∨ (State.reset.setI 0xFF1).base + 15 - 1 ≤ 0xFFF) ∧
      (0 = 0 ∨ (State.reset.setI 0x2000).base + 0 - 1 ≤ 0xFFF) := by decide
/-- DrawTogglesExactlyTheCoveredPixels: a covered pixel, across both edges. -/
theorem witness_covered : CoveredBySprite (spriteAt 0xC0 0xFF 0xFF) 0x300 1 0xFF 0xFF 0 31 :=
  ⟨0, 1, by decide, by decide, by decide, by decide, by decide⟩
/-- KeySkipsReadTheSelectedKey. -/
theorem witness_key : (7 : Key).val = ((one 10 0x17).getV 10).toNat % 16 := by decide
/-- TimersFollowTicksNotSteps: a run without FX15, and a step that moves the delay timer. -/
theorem witness_timers :
    NoDelayWrite [.keyWrite 1 true, .tick, .redrawClear, .tick] (State.reset.setDt 1) ∧
      gives (runEvents [.keyWrite 1 true, .tick, .redrawClear, .tick] (State.reset.setDt 1)) (fun t => t.dt == 0) = true ∧
      gives (runWord 0xFA15 (one 10 7)) (fun t => t.dt != 0) = true := by
  refine ⟨?_, by decide, by decide⟩
  simp [NoDelayWrite]
/-- StepKeepsMemoryCanonical, RunsKeepTheInvariants: a canonical memory with a store to come. -/
theorem witness_memory_canonical :
    MemoryCanonical ((two 0 0x11 1 0x22).withFetchWord 16 0xF155) ∧
      gives (step ((two 0 0x11 1 0x22).withFetchWord 16 0xF155)) (fun t => t.mem.length == 4) = true := by
  refine ⟨?_, by decide⟩
  unfold MemoryCanonical
  decide
/-- StepKeepsThePcBounded, at the highest `PC`. -/
theorem witness_pc_bounded :
    PcBounded (State.reset.setPc 0x10FE) ∧ (∃ t, step (State.reset.setPc 0x10FE) = .next t) ∧
      PcBounded ((State.reset.setPc 0xFFE).setStatus (.waitingForKey 3)) := by
  refine ⟨⟨by decide, by decide, by simp [State.reset, State.setPc]⟩, ⟨_, rfl⟩, by decide, by decide, ?_⟩
  intro x _
  decide
/-- UnseenStateNeverSteersAProgram: states that differ in `ST`, `REDRAW` and a stale stack entry. -/
theorem witness_unseen :
    AgreeForPrograms (stacked 0 3 0x777) ((State.reset.setSt 9).setRedraw true) ∧
      (∃ t, step (stacked 0 3 0x777) = .next t) ∧ ∃ t, step ((State.reset.setSt 9).setRedraw true) = .next t := by
  refine ⟨⟨rfl, rfl, rfl, rfl, rfl, ?_, rfl, rfl, rfl, rfl, rfl, rfl⟩, ⟨_, rfl⟩, ⟨_, rfl⟩⟩
  intro j hj
  exact absurd hj (Nat.not_lt_zero _)

end Sys2Proof.Tests
end

section
/-! The memory bus (spec/20_memory.md): the guarded write of one cell, and the order of an opcode's two bytes. -/

namespace Sys2Proof.Machine

variable {s : State}

theorem memWrite_ok {a : Nat} (b : Byte) (h : a ≤ 0xFFF) : memWrite s a b = .ok (s.storeBytes a [b]) := by
  rw [memWrite, if_neg (by omega)]

theorem memWrite_error {a : Nat} (b : Byte) (h : 0xFFF < a) : memWrite s a b = .error .outOfRangeAccess := by
  rw [memWrite, if_pos h]

/-- One cell after one byte is stored (R43). -/
theorem State.byteAt_storeBytes_singleton (a c : Nat) (b : Byte) :
    (s.storeBytes a [b]).byteAt c = if c = a then b else s.byteAt c :=
  Memory.read_write a c b

/-- Settles O3: below the guard the write is one stored byte, whose read and frame lemmas give the clauses. -/
theorem memoryBusGuardsAndWritesOneCell : Obligations.MemoryBusGuardsAndWritesOneCell := by
  intro s a b
  refine ⟨fun h => ⟨memRead_error h, memWrite_error b h⟩,
    fun h => ⟨memRead_ok h, s.storeBytes a [b], memWrite_ok b h, ?written, fun c hc => ?others,
      State.pc_storeBytes .., ?parts⟩⟩
  case written => rw [State.byteAt_storeBytes_singleton, if_pos rfl]
  case others => rw [State.byteAt_storeBytes_singleton, if_neg hc]
  case parts => exact (SameBut.refl _ s).storeBytes a [b] List.mem_cons_self

/-- Settles O10: the fetch answers the opcode of the two bytes, and `opcodeOf` puts the first one high. -/
theorem fetchReadsTheHighByteFirst : Obligations.FetchReadsTheHighByteFirst :=
  fun _ h => ⟨_, fetch_ok h, opcodeOf_toNat _ _⟩

end Sys2Proof.Machine
end

section
/-! The execution cycle (spec/40_execution_cycle.md): what a step is in each status, and that it always answers a
next state. -/

namespace Sys2Proof.Machine

variable {s : State}

/-! ### A step, status by status (R80) -/

theorem step_of_halted {k : HaltReason} (hs : s.status = .halted k) : step s = .next s := by
  simp only [step, hs]

theorem step_of_waiting {x : Reg} (hs : s.status = .waitingForKey x) : step s = pollKeypad x s := by
  simp only [step, hs]

theorem step_of_decoded {i : Instr} (hs : s.status = .running) (hi : fetchDecode s = .ok i) :
    step s = exec i s := by
  simp only [step, hs, hi]

theorem step_of_fetchDecode_error {k : HaltReason} (hs : s.status = .running) (hk : fetchDecode s = .error k) :
    step s = .next (s.setStatus (.halted k)) := by
  simp only [step, hs, hk, raise_eq]

/-! ### Every instruction and every poll answers a next state (R88) -/

/-- Only the stack instructions and the range instructions have a guard, and a failing guard is a next state too;
the other meanings end in one of the named ways to leave `PC` as they stand. -/
theorem exec_exists_next (i : Instr) (s : State) : ∃ t, exec i s = .next t := by
  cases i
  case ret => exact returnFrom_cases.elim (fun ⟨_, h⟩ => ⟨_, h⟩) fun ⟨_, h⟩ => ⟨_, h⟩
  case callNnn nnn => exact (callTo_cases (target12 nnn)).elim (fun ⟨_, h⟩ => ⟨_, h⟩) fun ⟨_, h⟩ => ⟨_, h⟩
  case drwVxVyN x y n =>
    exact (em (rangeValid s.base n)).elim (fun h => ⟨_, exec_drw_next x y h⟩) fun h => ⟨_, exec_drw_halts x y h⟩
  case ldBVx x =>
    exact (le_or_gt _ 0xFFF).elim (fun h => ⟨_, exec_ldBVx_next x h⟩) fun h => ⟨_, exec_ldBVx_halts x h⟩
  case ldMemVx x =>
    exact (le_or_gt _ 0xFFF).elim (fun h => ⟨_, exec_ldMemVx_next x h⟩) fun h => ⟨_, exec_ldMemVx_halts x h⟩
  case ldVxMem x =>
    exact (le_or_gt _ 0xFFF).elim (fun h => ⟨_, exec_ldVxMem_next x h⟩) fun h => ⟨_, exec_ldVxMem_halts x h⟩
  all_goals exact ⟨_, rfl⟩

theorem pollKeypad_exists_next (x : Reg) (s : State) : ∃ t, pollKeypad x s = .next t :=
  (pollKeypad_cases x).elim (fun ⟨_, _, h⟩ => ⟨_, h⟩) fun ⟨_, h⟩ => ⟨_, h⟩

/-- Settles O12: by the status, and in `Running` by whether fetch and decode give an instruction; each way the step
ends in a next state. -/
theorem stepAlwaysAnswersAState : Obligations.StepAlwaysAnswersAState := by
  intro s
  cases hs : s.status with
  | halted k => exact ⟨s, step_of_halted hs⟩
  | waitingForKey x =>
    rw [step_of_waiting hs]
    exact pollKeypad_exists_next x s
  | running =>
    cases hf : fetchDecode s with
    | ok i =>
      rw [step_of_decoded hs hf]
      exact exec_exists_next i s
    | error k => exact ⟨_, step_of_fetchDecode_error hs hf⟩

/-- Settles O13: the equation of a step in `Halted(k)`. -/
theorem haltedStepChangesNothing : Obligations.HaltedStepChangesNothing :=
  fun _ _ hs => step_of_halted hs

end Sys2Proof.Machine
end

section
/-! Control flow (spec/41_control_flow.md): the jump, and the four skips as one shared skip with four conditions. -/

namespace Sys2Proof.Machine

variable {s : State}

/-! ### The meanings through the shared operations -/

theorem exec_jpNnn (nnn : Addr12) : exec (.jpNnn nnn) s = jumpTo (target12 nnn) s := rfl
theorem exec_seVxNn (x : Reg) (nn : Byte) : exec (.seVxNn x nn) s = skipIf (s.getV x == nn) s := rfl
theorem exec_sneVxNn (x : Reg) (nn : Byte) : exec (.sneVxNn x nn) s = skipIf (s.getV x != nn) s := rfl
theorem exec_seVxVy (x y : Reg) : exec (.seVxVy x y) s = skipIf (s.getV x == s.getV y) s := rfl
theorem exec_sneVxVy (x y : Reg) : exec (.sneVxVy x y) s = skipIf (s.getV x != s.getV y) s := rfl

/-! ### Jump and skips -/

/-- A skip whose test decides `p` moves `PC` by 4 or 2 as `p` says, and touches nothing else. -/
theorem skipIf_exists_pcMoves {c : Bool} {p : Prop} [Decidable p] (hc : c = true ↔ p) :
    ∃ t, skipIf c s = .next t ∧ PcMoves (if p then 4 else 2) s t ∧ SameBut [] s t := by
  refine ⟨_, skipIf_eq c, ?moves, (SameBut.refl [] s).setPc _⟩
  by_cases hp : p
  · rw [if_pos hp, if_pos (hc.mpr hp)]
    exact pcMoves_four
  · rw [if_neg hp, if_neg (mt hc.mp hp)]
    exact pcMoves_two

/-- Settles O22: the jump sets `PC` to the zero-extended target. -/
theorem jumpSetsThePc : Obligations.JumpSetsThePc := by
  intro s nnn
  rw [exec_jpNnn]
  exact ⟨_, jumpTo_eq _, target12_toNat nnn, (SameBut.refl [] s).setPc _⟩

/-- Settles O27: each of the four is the shared skip, whose test decides the comparison of its row. -/
theorem registerSkipsCompare : Obligations.RegisterSkipsCompare := by
  intro s x y nn
  rw [exec_seVxNn, exec_sneVxNn, exec_seVxVy, exec_sneVxVy]
  exact ⟨skipIf_exists_pcMoves beq_iff_eq, skipIf_exists_pcMoves bne_iff_ne,
    skipIf_exists_pcMoves beq_iff_eq, skipIf_exists_pcMoves bne_iff_ne⟩

end Sys2Proof.Machine
end

section
/-! The register instructions (spec/42_alu.md): the load of an immediate and the copy are one shared write of a single
register, followed by the advance. -/

namespace Sys2Proof.Machine

/-! ### The meanings through the shared operations -/

theorem exec_ldVxNn (x : Reg) (nn : Byte) (s : State) : exec (.ldVxNn x nn) s = advance (s.setV x nn) := rfl
theorem exec_ldVxVy (x y : Reg) (s : State) : exec (.ldVxVy x y) s = advance (s.setV x (s.getV y)) := rfl

/-! ### One register written -/

theorem RegsSameBut.setV (x : Reg) (b : Byte) (s : State) : RegsSameBut [x] s (s.setV x b) :=
  fun _ hr => s.getV_setV_of_ne b (List.ne_of_not_mem_cons hr)

/-- An instruction that writes one register and advances: the byte is in place, `PC` has moved by 2, and every other
register and every other part are unchanged. -/
theorem advance_setV_exists (x : Reg) (b : Byte) (s : State) :
    ∃ t, advance (s.setV x b) = .next t ∧ t.getV x = b ∧ PcMoves 2 s t ∧ RegsSameBut [x] s t ∧
      SameBut [.regs] s t := by
  refine ⟨_, advance_eq, ?written, ?moves, ?registers, ?parts⟩
  case written => rw [State.getV_setPc, State.getV_setV_self]
  case moves => exact pcMoves_two (s := s.setV x b)
  case registers => exact RegsSameBut.setV x b s
  case parts => exact ((SameBut.refl _ s).setV x b List.mem_cons_self).setPc _

/-- Settles O29: 6XNN is the shared write of the immediate, 8XY0 that of the value of `V[Y]` before it. -/
theorem loadImmediateAndCopy : Obligations.LoadImmediateAndCopy := by
  intro s x y nn
  rw [exec_ldVxNn, exec_ldVxVy]
  exact ⟨advance_setV_exists x nn s, advance_setV_exists x (s.getV y) s⟩

end Sys2Proof.Machine
end

section
/-! The index instructions (spec/43_index_memory.md): one shared write of `I`, followed by the advance. -/

namespace Sys2Proof.Machine

theorem exec_ldINnn (nnn : Addr12) (s : State) : exec (.ldINnn nnn) s = advance (s.setI (target12 nnn)) := rfl

/-- An instruction that writes `I` and advances: the word is in place, `PC` has moved by 2, and every other part is
unchanged. -/
theorem advance_setI_exists (w : Word) (s : State) :
    ∃ t, advance (s.setI w) = .next t ∧ t.i = w ∧ PcMoves 2 s t ∧ SameBut [.index] s t := by
  refine ⟨_, advance_eq, ?written, ?moves, ?parts⟩
  case written => rw [State.setPc_i, State.setI_i]
  case moves => exact pcMoves_two (s := s.setI w)
  case parts => exact ((SameBut.refl _ s).setI w List.mem_cons_self).setPc _

/-- Settles O36: ANNN is the shared write of the zero-extended address. -/
theorem loadIndexImmediate : Obligations.LoadIndexImmediate := by
  intro s nnn
  obtain ⟨t, hnext, hi, hpc, hparts⟩ := advance_setI_exists (target12 nnn) s
  rw [exec_ldINnn]
  exact ⟨t, hnext, hi ▸ target12_toNat nnn, hpc, hparts⟩

end Sys2Proof.Machine
end

section
/-! The timer instructions (spec/45_keypad_timers.md): FX07 is the shared write of one register, FX15 and FX18 write
one timer, and only the event `Tick` emits `ToneEnd`. -/

namespace Sys2Proof.Machine

variable {s : State}

/-! ### The meanings through the shared operations -/

theorem exec_ldVxDt (x : Reg) : exec (.ldVxDt x) s = advance (s.setV x s.dt) := rfl
theorem exec_ldDtVx (x : Reg) : exec (.ldDtVx x) s = advance (s.setDt (s.getV x)) := rfl
theorem exec_ldStVx (x : Reg) : exec (.ldStVx x) s = advance (s.setSt (s.getV x)) := rfl

/-! ### An update that leaves `PC` alone, then the advance -/

/-- Both halves of a frame after the advance: `PC` has moved by 2 from where the instruction began, and the parts are
those the update left alone. -/
theorem pcMoves_two_and_sameBut_setPc {ps : List Part} {t : State} (hpc : t.pc = s.pc) (h : SameBut ps s t) :
    PcMoves 2 s (t.setPc (t.pc + 2)) ∧ SameBut ps s (t.setPc (t.pc + 2)) :=
  ⟨hpc ▸ pcMoves_two, h.setPc _⟩

theorem advance_setDt_exists (b : Byte) (s : State) :
    ∃ t, advance (s.setDt b) = .next t ∧ t.dt = b ∧ PcMoves 2 s t ∧ SameBut [.delayTimer] s t :=
  ⟨_, advance_eq, State.setDt_dt s b,
    pcMoves_two_and_sameBut_setPc (State.setDt_pc s b) ((SameBut.refl _ s).setDt b List.mem_cons_self)⟩

theorem advance_setSt_exists (b : Byte) (s : State) :
    ∃ t, advance (s.setSt b) = .next t ∧ t.st = b ∧ PcMoves 2 s t ∧ SameBut [.soundTimer] s t :=
  ⟨_, advance_eq, State.setSt_st s b,
    pcMoves_two_and_sameBut_setPc (State.setSt_pc s b) ((SameBut.refl _ s).setSt b List.mem_cons_self)⟩

/-! ### The tone's end -/

theorem toneEnd_of_ne_tick {e : Event} (he : e ≠ .tick) (s : State) : toneEnd e s = false := by
  cases e with
  | tick => exact absurd rfl he
  | reset rom => rfl
  | step => rfl
  | keyWrite k b => rfl
  | redrawClear => rfl

/-- Settles O49: FX07 is the shared write of one register, FX15 and FX18 are the writes of one timer, and a step is
not the event that ends the tone. -/
theorem timerInstructionsMoveOneByte : Obligations.TimerInstructionsMoveOneByte := by
  intro s x
  rw [exec_ldVxDt, exec_ldDtVx, exec_ldStVx]
  exact ⟨advance_setV_exists x s.dt s, advance_setDt_exists (s.getV x) s,
    advance_setSt_exists (s.getV x) s, toneEnd_of_ne_tick (by decide) s⟩

end Sys2Proof.Machine
end

section
/-! What an instruction can do, said once: `Effect` lists the shapes of the next state, each with the parts and the
registers that the tables of R10 and R12 must list for it, and `exec_effect` finds the shape of every instruction. The
frames, the canonical memory and the bound of `PC` are then arguments over a shape, not over 34 instructions. -/

namespace Sys2Proof.Machine

variable {s t : State} {i : Instr}

/-! ### Registers written by the flag writers and by FX65 -/

theorem RegsSameBut.writeFlagThen (x : Reg) (flag result : Byte) (s : State) :
    RegsSameBut [regF, x] s (writeFlagThen x flag result s) := by
  intro r hr
  obtain ⟨hF, hx⟩ : r ≠ regF ∧ r ≠ x := by simpa using hr
  rw [getV_writeFlagThen, if_neg hx, if_neg hF]

theorem State.getV_loadRegs_of_le {bs : List Byte} {r : Reg} (h : bs.length ≤ r.val) :
    (s.loadRegs bs).getV r = s.getV r := by
  rw [State.getV_loadRegs, List.getD_eq_default _ _ h]

theorem RegsSameBut.loadRegs {x : Reg} {bs : List Byte} (hb : bs.length = x.val + 1) (s : State) :
    RegsSameBut ((List.finRange 16).filter (· ≤ x)) s (s.loadRegs bs) := by
  intro r hr
  have hx : x.val < r.val := by simpa using hr
  exact State.getV_loadRegs_of_le (by omega)

/-! ### The shapes -/

/-- Where a completed instruction other than a return can leave `PC` (R16). -/
def PcTarget (s : State) (w : Word) : Prop :=
  w = s.pc + 2 ∨ w = s.pc + 4 ∨ (∃ nnn, w = target12 nnn) ∨ ∃ nnn b, w = target12 nnn + zext16 b

/-- The shapes of the state after the instruction `i`. -/
inductive Effect (i : Instr) (s : State) : State → Prop
  /-- A fault, or the wait of FX0A. -/
  | status (st : Status) (hp : .status ∈ writesParts i := by simp [writesParts]) : Effect i s (s.setStatus st)
  /-- A skip or a jump. -/
  | pc (w : Word) (hw : PcTarget s w) : Effect i s (s.setPc w)
  | call (h : s.sp.val < 16) (nnn : Addr12) (hp : .stack ∈ writesParts i := by simp [writesParts]) :
      Effect i s ((s.setStack (s.stack.set s.sp.val (s.pc + 2)) ⟨s.sp.val + 1, by omega⟩).setPc (target12 nnn))
  | ret (h : 0 < s.sp.val) (hp : .stack ∈ writesParts i := by simp [writesParts]) :
      Effect i s ((s.setStack s.stack ⟨s.sp.val - 1, by omega⟩).setPc (s.stack[s.sp.val - 1]'(by omega)))
  | regs (v : Vector Byte 16) (hv : RegsSameBut (writesRegs i) s (s.setRegs v))
      (hp : .regs ∈ writesParts i := by simp [writesParts]) : Effect i s ((s.setRegs v).setPc (s.pc + 2))
  /-- CXNN. -/
  | random (x : Reg) (b : Byte) (hx : x ∈ writesRegs i := by simp [writesRegs])
      (hp : .regs ∈ writesParts i := by simp [writesParts]) (hd : .draws ∈ writesParts i := by simp [writesParts]) :
      Effect i s ((s.setV x b).countDraw.setPc (s.pc + 2))
  | index (w : Word) (hp : .index ∈ writesParts i := by simp [writesParts]) : Effect i s ((s.setI w).setPc (s.pc + 2))
  | delay (b : Byte) (hp : .delayTimer ∈ writesParts i := by simp [writesParts]) :
      Effect i s ((s.setDt b).setPc (s.pc + 2))
  | sound (b : Byte) (hp : .soundTimer ∈ writesParts i := by simp [writesParts]) :
      Effect i s ((s.setSt b).setPc (s.pc + 2))
  | clear (fb : Framebuffer) (hp : .display ∈ writesParts i := by simp [writesParts])
      (hr : .redrawFlag ∈ writesParts i := by simp [writesParts]) :
      Effect i s (((s.setFb fb).setRedraw true).setPc (s.pc + 2))
  /-- DXYN. -/
  | draw (fb : Framebuffer) (b : Byte) (hx : regF ∈ writesRegs i := by simp [writesRegs])
      (hp : .display ∈ writesParts i := by simp [writesParts])
      (hr : .redrawFlag ∈ writesParts i := by simp [writesParts])
      (hv : .regs ∈ writesParts i := by simp [writesParts]) :
      Effect i s ((((s.setFb fb).setV regF b).setRedraw true).setPc (s.pc + 2))
  | store (bs : List Byte) (hb : rangeValid s.base bs.length) (hp : .memory ∈ writesParts i := by simp [writesParts]) :
      Effect i s ((s.storeBytes s.base bs).setPc (s.pc + 2))

theorem PcTarget.skip (c : Bool) : PcTarget s (if c then s.pc + 4 else s.pc + 2) := by
  cases c
  · exact .inl rfl
  · exact .inr (.inl rfl)

/-- Every instruction answers a next state of one of the shapes: those with a guard by whether it holds, the others as
their meaning stands. -/
theorem exec_exists_effect (i : Instr) (s : State) : ∃ t, exec i s = .next t ∧ Effect i s t := by
  cases i
  case ret =>
    rcases returnFrom_cases with ⟨h, he⟩ | ⟨-, he⟩
    · exact ⟨_, he, .ret h⟩
    · exact ⟨_, he, .status _⟩
  case callNnn nnn =>
    rcases callTo_cases (target12 nnn) with ⟨h, he⟩ | ⟨-, he⟩
    · exact ⟨_, he, .call h nnn⟩
    · exact ⟨_, he, .status _⟩
  case drwVxVyN x y n =>
    by_cases h : rangeValid s.base n
    · exact ⟨_, exec_drw_next x y h, .draw _ _⟩
    · exact ⟨_, exec_drw_halts x y h, .status _⟩
  case ldBVx x =>
    rcases le_or_gt (s.base + 2) 0xFFF with h | h
    · exact ⟨_, exec_ldBVx_next x h, .store _ (by simp [rangeValid]; omega)⟩
    · exact ⟨_, exec_ldBVx_halts x h, .status _⟩
  case ldMemVx x =>
    rcases le_or_gt (s.base + x.val) 0xFFF with h | h
    · exact ⟨_, exec_ldMemVx_next x h, .store _ (by simp [rangeValid]; omega)⟩
    · exact ⟨_, exec_ldMemVx_halts x h, .status _⟩
  case ldVxMem x =>
    rcases le_or_gt (s.base + x.val) 0xFFF with h | h
    · exact ⟨_, exec_ldVxMem_next x h, .regs _ (.loadRegs (by simp) s)⟩
    · exact ⟨_, exec_ldVxMem_halts x h, .status _⟩
  case cls => exact ⟨_, rfl, .clear _⟩
  case rndVxNn x nn => exact ⟨_, rfl, .random x _⟩
  case ldVxK x => exact ⟨_, rfl, .status _⟩
  case ldDtVx x => exact ⟨_, rfl, .delay _⟩
  case ldStVx x => exact ⟨_, rfl, .sound _⟩
  case ldINnn | addIVx | ldFVx => exact ⟨_, rfl, .index _⟩
  case jpNnn nnn => exact ⟨_, rfl, .pc _ (.inr (.inr (.inl ⟨nnn, rfl⟩)))⟩
  case jpV0Nnn nnn => exact ⟨_, rfl, .pc _ (.inr (.inr (.inr ⟨nnn, _, rfl⟩)))⟩
  case seVxNn | sneVxNn | seVxVy | sneVxVy | skpVx | sknpVx => exact ⟨_, rfl, .pc _ (.skip _)⟩
  case addVxVy x _ | subVxVy x _ | shrVx x _ | subnVxVy x _ | shlVx x _ =>
    exact ⟨_, rfl, .regs _ (.writeFlagThen x _ _ s)⟩
  all_goals exact ⟨_, rfl, .regs _ (.setV _ _ s)⟩

/-- The shape of every instruction. -/
theorem exec_effect (h : exec i s = .next t) : Effect i s t := by
  obtain ⟨u, hu, he⟩ := exec_exists_effect i s
  cases hu.symm.trans h
  exact he

end Sys2Proof.Machine
end

section
/-! What an instruction may write (spec/10_state.md R10, R12), and the two invariants (R17, R26), each an argument over
the shapes of `Effect`. -/

namespace Sys2Proof.Machine

variable {s t : State} {i : Instr}

/-! ### Frames -/

theorem Effect.sameBut (h : Effect i s t) : SameBut (writesParts i) s t := by
  have same := SameBut.refl (writesParts i) s
  cases h with
  | status st hp => exact same.setStatus st hp
  | pc w hw => exact same.setPc w
  | call h nnn hp => exact (same.setStack _ _ hp).setPc _
  | ret h hp => exact (same.setStack _ _ hp).setPc _
  | regs v hv hp => exact (same.setRegs v hp).setPc _
  | random x b hx hp hd => exact ((same.setV x b hp).countDraw hd).setPc _
  | index w hp => exact (same.setI w hp).setPc _
  | delay b hp => exact (same.setDt b hp).setPc _
  | sound b hp => exact (same.setSt b hp).setPc _
  | clear fb hp hr => exact ((same.setFb fb hp).setRedraw true hr).setPc _
  | draw fb b hx hp hr hv => exact (((same.setFb fb hp).setV regF b hv).setRedraw true hr).setPc _
  | store bs hb hp => exact (same.storeBytes _ bs hp).setPc _

theorem getV_setV_of_not_mem {xs : List Reg} {x r : Reg} (b : Byte) (hx : x ∈ xs) (hr : r ∉ xs) :
    (s.setV x b).getV r = s.getV r :=
  s.getV_setV_of_ne b fun e => hr (e ▸ hx)

theorem Effect.regsSameBut (h : Effect i s t) : RegsSameBut (writesRegs i) s t := by
  intro r hr
  cases h with
  | regs v hv hp => exact hv r hr
  | random x b hx hp hd => exact getV_setV_of_not_mem b hx hr
  | draw fb b hx hp hq hv => exact getV_setV_of_not_mem (s := s) b hx hr
  | _ => rfl

/-- Settles O20: the frame of the instruction's shape. -/
theorem instructionsWriteOnlyTheirParts : Obligations.InstructionsWriteOnlyTheirParts :=
  fun _ _ _ h => (exec_effect h).sameBut

/-- Settles O21: the frame of the instruction's shape, register by register. -/
theorem instructionsWriteOnlyTheirRegisters : Obligations.InstructionsWriteOnlyTheirRegisters :=
  fun _ _ _ h => (exec_effect h).regsSameBut

/-! ### All a step can do -/

/-- A step changes nothing, ends a wait, faults, or executes the next instruction, which was fetchable. -/
theorem step_cases (h : step s = .next t) :
    t = s ∨
    (∃ x b, s.status = .waitingForKey x ∧ t = ((s.setV x b).setStatus .running).setPc (s.pc + 2)) ∨
    (∃ k, s.status = .running ∧ t = s.setStatus (.halted k)) ∨
    ∃ i, s.status = .running ∧ s.pc.toNat ≤ 0xFFE ∧ nextInstr s = some i ∧ exec i s = .next t := by
  cases hs : s.status with
  | halted k => exact .inl (step_halted hs h)
  | waitingForKey x =>
    rcases step_waiting hs h with ⟨k, -, ht⟩ | ⟨-, ht⟩
    · exact .inr (.inl ⟨x, _, rfl, ht⟩)
    · exact .inl ht
  | running =>
    rcases step_running hs h with ⟨k, -, -, ht⟩ | ⟨i, hf, hn, he⟩
    · exact .inr (.inr (.inl ⟨k, rfl, ht⟩))
    · refine .inr (.inr (.inr ⟨i, rfl, ?fetchable, hn, he⟩))
      rcases fetchDecode_cases (s := s) with ⟨-, hf'⟩ | ⟨hpc, -⟩
      · cases hf.symm.trans hf'
      · exact hpc

/-! ### Memory stays canonical -/

theorem Effect.memoryCanonical (h : Effect i s t) (hc : MemoryCanonical s) : MemoryCanonical t := by
  cases h with
  | store bs hb hp => exact State.wf_storeBytes hb hc
  | _ => exact hc

/-- Settles O53: only a guarded store writes memory, and a store in range keeps the form. -/
theorem stepKeepsMemoryCanonical : Obligations.StepKeepsMemoryCanonical := by
  intro s t hc h
  rcases step_cases h with rfl | ⟨x, b, -, rfl⟩ | ⟨k, -, rfl⟩ | ⟨i, -, -, -, he⟩
  · exact hc
  · exact hc
  · exact hc
  · exact (exec_effect he).memoryCanonical hc

/-! ### `PC` stays bounded -/

theorem toNat_add_le {w : Word} (hw : w.toNat ≤ 0xFFE) (k : Word) : (w + k).toNat ≤ 0xFFE + k.toNat := by
  rw [BitVec.toNat_add]
  omega

theorem PcTarget.le {w : Word} (h : PcTarget s w) (hpc : s.pc.toNat ≤ 0xFFE) : w.toNat ≤ 0x10FE := by
  rcases h with rfl | rfl | ⟨nnn, rfl⟩ | ⟨nnn, b, rfl⟩
  · exact (toNat_add_le hpc 2).trans (by decide)
  · exact (toNat_add_le hpc 4).trans (by decide)
  · have := nnn.isLt
    rw [target12_toNat]
    omega
  · have := nnn.isLt
    have := b.isLt
    rw [BitVec.toNat_add, target12_toNat, zext16_toNat]
    omega

theorem Effect.pc_le (h : Effect i s t) (hpc : s.pc.toNat ≤ 0xFFE) (hstack : ∀ j : Fin 16, s.stack[j].toNat ≤ 0x1000) :
    t.pc.toNat ≤ 0x10FE := by
  have next : (s.pc + 2).toNat ≤ 0x10FE := PcTarget.le (.inl rfl) hpc
  cases h with
  | status st hp => exact hpc.trans (by decide)
  | pc w hw => exact hw.le hpc
  | call h nnn hp => exact PcTarget.le (.inr (.inr (.inl ⟨nnn, rfl⟩))) hpc
  | ret h hp => exact (hstack ⟨s.sp.val - 1, by omega⟩).trans (by decide)
  | _ => exact next

theorem Effect.stack_le (h : Effect i s t) (hpc : s.pc.toNat ≤ 0xFFE)
    (hstack : ∀ j : Fin 16, s.stack[j].toNat ≤ 0x1000) (j : Fin 16) : t.stack[j].toNat ≤ 0x1000 := by
  cases h with
  | call h nnn hp =>
    simp only [State.setPc_stack, State.setStack_stack, Fin.getElem_fin, Vector.getElem_set]
    split
    · exact toNat_add_le hpc 2
    · exact hstack j
  | _ => exact hstack j

/-- The instruction that begins a wait leaves `PC` where it was fetched. -/
theorem exec_waiting_pc {x : Reg} (h : exec i s = .next t) (hs : s.status = .running)
    (ht : t.status = .waitingForKey x) : t.pc = s.pc := by
  rcases exec_status h with ⟨hst, -⟩ | ⟨_, -, rfl⟩ | ⟨_, rfl, -⟩
  · rw [hst, hs] at ht
    cases ht
  · rfl
  · rfl

/-- Settles O54: an instruction was fetched from at most 0xFFE, so each shape leaves `PC` and the stack in bounds. -/
theorem stepKeepsThePcBounded : Obligations.StepKeepsThePcBounded := by
  intro s t hb h
  obtain ⟨hpc, hstack, hwait⟩ := hb
  rcases step_cases h with rfl | ⟨x, b, hs, rfl⟩ | ⟨k, -, rfl⟩ | ⟨i, hs, hfetch, -, he⟩
  · exact ⟨hpc, hstack, hwait⟩
  · exact ⟨PcTarget.le (.inl rfl) (hwait x hs), hstack, fun _ h => nomatch h⟩
  · exact ⟨hpc, hstack, fun _ h => nomatch h⟩
  · have effect := exec_effect he
    exact ⟨effect.pc_le hfetch hstack, effect.stack_le hfetch hstack, fun x ht => exec_waiting_pc he hs ht ▸ hfetch⟩

end Sys2Proof.Machine
end

section
/-! The status (spec/40_execution_cycle.md R80, spec/60_exceptions.md R190, R191): how a step moves it, and which
faults a running machine raises. -/

namespace Sys2Proof.Machine

variable {s t : State} {i : Instr}

/-- A running machine is halted by an instruction exactly with the fault of a failing guard. -/
theorem exec_halts_iff {k : HaltReason} (hs : s.status = .running) (h : exec i s = .next t) :
    t.status = .halted k ↔ GuardFails i s k := by
  constructor
  · intro ht
    rcases exec_status h with ⟨hst, -⟩ | ⟨x, -, rfl⟩ | ⟨k', rfl, hg⟩
    · rw [hst, hs] at ht
      cases ht
    · cases ht
    · cases ht
      exact hg
  · intro hg
    cases (exec_of_guardFails hg).symm.trans h
    rfl

/-- Settles O16: one row of the table per status, and in `Running` one case per move of `exec_status`. -/
theorem statusMovesOnlyAsTheTableSays : Obligations.StatusMovesOnlyAsTheTableSays := by
  refine ⟨fun s t h => ⟨fun k hs => step_halted hs h ▸ hs, fun x hs => ?waiting, fun hs => ?running⟩,
    fun s t rom h => ?reset⟩
  case waiting =>
    rcases step_waiting hs h with ⟨k, hk, rfl⟩ | ⟨hk, rfl⟩
    · exact .inr ⟨rfl, k, (lowestKeyDown_eq_some.mp hk).1⟩
    · exact .inl ⟨hs, lowestKeyDown_eq_none.mp hk⟩
  case running =>
    rcases step_running hs h with ⟨k, -, -, rfl⟩ | ⟨i, -, hi, he⟩
    · exact .inr (.inr ⟨k, rfl⟩)
    · rcases exec_status he with ⟨hst, hne⟩ | ⟨x, rfl, rfl⟩ | ⟨k, rfl, -⟩
      · exact .inl ⟨hst.trans hs, i, hi, hne⟩
      · exact .inr (.inl ⟨x, rfl, hi⟩)
      · exact .inr (.inr ⟨k, rfl⟩)
  case reset =>
    rcases resetWith_cases (s := s) rom with ⟨-, he⟩ | ⟨-, he⟩ <;> cases he.symm.trans h
    rfl

/-- Settles O17: fetch, decode and a failing guard all raise their fault at the state the step began in. -/
theorem faultingStepChangesOnlyTheStatus : Obligations.FaultingStepChangesOnlyTheStatus := by
  intro s t k hs h ht
  rcases step_running hs h with ⟨k', -, -, rfl⟩ | ⟨i, -, -, he⟩
  · cases ht
    rfl
  · cases (exec_of_guardFails ((exec_halts_iff hs he).mp ht)).symm.trans he
    rfl

/-- Settles O18: a fetch or decode that faults leaves no next instruction, so the first two cases stand alone; with a
next instruction the other five are its failing guard. -/
theorem faultsHappenExactlyWhereListed : Obligations.FaultsHappenExactlyWhereListed := by
  intro s t k hs h
  rcases step_running hs h with ⟨k', hf, hn, rfl⟩ | ⟨i, hf, hn, he⟩
  · have halts : (s.setStatus (.halted k')).status = .halted k ↔ k = k' := by simp [eq_comm]
    rw [halts]
    rcases fetchDecode_cases (s := s) with ⟨hpc, hf'⟩ | ⟨hpc, ⟨i, -, hf'⟩ | ⟨hd, hf'⟩⟩ <;> cases hf.symm.trans hf'
    · simp [hn, show 0xFFF ≤ s.pc.toNat by omega, show ¬s.pc.toNat ≤ 0xFFE by omega]
    · simp [hn, hd, hpc, show ¬0xFFF ≤ s.pc.toNat by omega]
  · rw [exec_halts_iff hs he]
    rcases fetchDecode_cases (s := s) with ⟨-, hf'⟩ | ⟨hpc, ⟨j, hd, -⟩ | ⟨-, hf'⟩⟩
    · cases hf.symm.trans hf'
    · simp [hn, hd, GuardFails, show ¬0xFFF ≤ s.pc.toNat by omega, State.base]
    · cases hf.symm.trans hf'

/-! ### Fetch and decode -/

/-- An outcome that only sets the status leaves `PC` and every other part as they were. -/
theorem exists_of_eq_setStatus {r : Result} {st : Status} (h : r = .next (s.setStatus st)) :
    ∃ t, r = .next t ∧ t.status = st ∧ t.pc = s.pc ∧ SameBut [.status] s t :=
  ⟨_, h, rfl, rfl, (SameBut.refl _ s).setStatus st List.mem_cons_self⟩

theorem fetchDecode_past_end (h : 0xFFF ≤ s.pc.toNat) : fetchDecode s = .error .outOfRangeAccess := by
  rcases fetchDecode_cases (s := s) with ⟨-, hf⟩ | ⟨hpc, -⟩
  · exact hf
  · omega

theorem fetchDecode_known (h : s.pc.toNat ≤ 0xFFE)
    (hd : decodeOp (opcodeOf (s.byteAt s.pc.toNat) (s.byteAt (s.pc.toNat + 1))) = some i) :
    fetchDecode s = .ok i := by
  simp only [fetchDecode, fetch_ok h, hd]

theorem fetchDecode_unknown (h : s.pc.toNat ≤ 0xFFE)
    (hd : decodeOp (opcodeOf (s.byteAt s.pc.toNat) (s.byteAt (s.pc.toNat + 1))) = none) :
    fetchDecode s = .error .unknownOpcode := by
  simp only [fetchDecode, fetch_ok h, hd]

/-- Settles O19: a fetch past the end and an unknown word are the two errors of fetch and decode. -/
theorem fetchAndDecodeFaultsHalt : Obligations.FetchAndDecodeFaultsHalt := by
  intro s hs
  exact ⟨fun h => exists_of_eq_setStatus (step_of_fetchDecode_error hs (fetchDecode_past_end h)),
    fun h hd => exists_of_eq_setStatus (step_of_fetchDecode_error hs (fetchDecode_unknown h hd))⟩

/-- Two bytes decode as their word does. -/
theorem decodeOp_of_decode_eq_ok {hi lo : Byte} {rest rest' : List Byte}
    (h : decode (hi :: lo :: rest) = .ok (i, rest')) : decodeOp (opcodeOf hi lo) = some i := by
  rw [decode] at h
  split at h
  · cases h
    assumption
  · cases h

/-- Settles O11: the two bytes at `PC` are the word that the fetch answers. -/
theorem stepRunsTheDecodedInstruction : Obligations.StepRunsTheDecodedInstruction :=
  fun _ _ hs hpc hd => step_of_decoded hs (fetchDecode_known hpc (decodeOp_of_decode_eq_ok hd))

/-! ### The wait -/

theorem pollKeypad_of_none {x : Reg} (h : lowestKeyDown s.key = none) : pollKeypad x s = .next s := by
  simp only [pollKeypad, h]

theorem pollKeypad_of_some {x : Reg} {k : Key} (h : lowestKeyDown s.key = some k) :
    pollKeypad x s = .next (((s.setV x (BitVec.ofNat 8 k.val)).setStatus .running).setPc (s.pc + 2)) := by
  simp only [pollKeypad, h, advance_eq, State.setStatus_pc, State.setV_pc]

/-- Settles O15: the poll with every key up, and the poll that finds the lowest key down. -/
theorem waitingStepTakesTheLowestKeyDown : Obligations.WaitingStepTakesTheLowestKeyDown := by
  intro s x hs
  rw [step_of_waiting hs]
  refine ⟨fun h => pollKeypad_of_none (lowestKeyDown_eq_none.mpr h), fun k hk hlow =>
    ⟨_, pollKeypad_of_some (lowestKeyDown_eq_some.mpr ⟨hk, hlow⟩), ?stored, pcMoves_two, rfl,
      RegsSameBut.setV x _ s, ?parts⟩⟩
  case stored =>
    rw [State.getV_setPc, State.getV_setStatus, State.getV_setV_self, BitVec.toNat_ofNat]
    omega
  case parts => exact (((SameBut.refl _ s).setV x _ (by decide)).setStatus _ (by decide)).setPc _

end Sys2Proof.Machine
end

section
/-! The host's events (spec/60_exceptions.md section 8, spec/70_reset_and_hazards.md): what each owns, what a halted
machine keeps, the timers over a run, and the invariants over a run. -/

namespace Sys2Proof.Machine

variable {s t : State}

/-! ### `Tick`, `KeyWrite` and `RedrawClear` -/

theorem SameBut.tick (s : State) : SameBut [.delayTimer, .soundTimer] s (tick s) :=
  ((SameBut.refl _ s).setDt _ (by decide)).setSt _ (by decide)

@[simp] theorem tick_dt_toNat (s : State) : (tick s).dt.toNat = s.dt.toNat - 1 := countDown_toNat s.dt
@[simp] theorem tick_st_toNat (s : State) : (tick s).st.toNat = s.st.toNat - 1 := countDown_toNat s.st

/-- Settles O50: both timers count down, and the tone ends when `ST` was 1. -/
theorem tickCountsDownAndEndsTheTone : Obligations.TickCountsDownAndEndsTheTone := by
  intro s
  refine ⟨⟨tick s, rfl, tick_dt_toNat s, tick_st_toNat s, rfl, SameBut.tick s, ?tone⟩,
    fun e he => toneEnd_of_ne_tick he s⟩
  have hone : s.st = 1 ↔ s.st.toNat = 1 := BitVec.toNat_inj.symm
  simp only [toneEnd, beq_iff_eq, hone, tick_st_toNat]
  omega

/-- Settles O51: one key is written, or the flag cleared. -/
theorem keyWriteAndRedrawClearOwnOneElement : Obligations.KeyWriteAndRedrawClearOwnOneElement := by
  intro s k b
  refine ⟨⟨s.setKey k b, rfl, ?key, fun j hj => ?others, rfl, ?keys⟩, ⟨s.setRedraw false, rfl, rfl, rfl, ?flag⟩⟩
  case key => simp
  case others =>
    have hne : k.val ≠ j.val := fun e => hj (Fin.ext e.symm)
    simp [Vector.getElem_set_ne, hne]
  case keys => exact (SameBut.refl _ s).setKey k b List.mem_cons_self
  case flag => exact (SameBut.refl _ s).setRedraw false List.mem_cons_self

/-- Settles O14: a step does nothing, and the other events own the four parts that are left out. -/
theorem onlyResetLeavesTheHaltedState : Obligations.OnlyResetLeavesTheHaltedState := by
  intro e s t k hs h hne
  cases e with
  | reset rom => exact absurd rfl (hne rom)
  | step =>
    cases step_halted hs h
    exact ⟨hs, rfl, SameBut.refl _ s⟩
  | tick =>
    cases h
    exact ⟨hs, rfl, (SameBut.tick s).mono (by decide)⟩
  | keyWrite j b =>
    cases h
    exact ⟨hs, rfl, (SameBut.refl _ s).setKey j b (by decide)⟩
  | redrawClear =>
    cases h
    exact ⟨hs, rfl, (SameBut.refl _ s).setRedraw false (by decide)⟩

/-! ### The timers over a run (R87) -/

theorem delayTimer_mem_writesParts {i : Instr} (h : .delayTimer ∈ writesParts i) : ∃ x, i = .ldDtVx x := by
  cases i <;> simp [writesParts] at h ⊢

theorem soundTimer_mem_writesParts {i : Instr} (h : .soundTimer ∈ writesParts i) : ∃ x, i = .ldStVx x := by
  cases i <;> simp [writesParts] at h ⊢

/-- A part that a step changes, other than those that a poll or a fault writes, is one that the next instruction is
listed for. -/
theorem step_writes_of_not_same {p : Part} (h : step s = .next t) (hp : ¬p.same s t)
    (hregs : p ≠ .regs) (hstatus : p ≠ .status) : ∃ i, nextInstr s = some i ∧ p ∈ writesParts i := by
  rcases step_cases h with rfl | ⟨x, b, -, rfl⟩ | ⟨k, -, rfl⟩ | ⟨i, -, -, hi, he⟩
  · exact absurd (SameBut.refl [] _ p List.not_mem_nil) hp
  · exact absurd ((((SameBut.refl [.regs, .status] s).setV x b (by decide)).setStatus _ (by decide)).setPc _ p
      (by simp [hregs, hstatus])) hp
  · exact absurd ((SameBut.refl [.status] s).setStatus _ (by decide) p (by simp [hstatus])) hp
  · exact ⟨i, hi, by_contra fun hn => hp ((exec_effect he).sameBut p hn)⟩

theorem step_writes_delayTimer (h : step s = .next t) (hdt : t.dt ≠ s.dt) : ∃ x, nextInstr s = some (.ldDtVx x) := by
  obtain ⟨i, hi, hp⟩ := step_writes_of_not_same (p := .delayTimer) h hdt (by decide) (by decide)
  obtain ⟨x, rfl⟩ := delayTimer_mem_writesParts hp
  exact ⟨x, hi⟩

theorem step_writes_soundTimer (h : step s = .next t) (hst : t.st ≠ s.st) : ∃ x, nextInstr s = some (.ldStVx x) := by
  obtain ⟨i, hi, hp⟩ := step_writes_of_not_same (p := .soundTimer) h hst (by decide) (by decide)
  obtain ⟨x, rfl⟩ := soundTimer_mem_writesParts hp
  exact ⟨x, hi⟩

/-- One event of a run without FX15 and `Reset` takes the delay timer down by one if it is a `Tick`. -/
theorem applyEvent_dt {e : Event} (hreset : ∀ rom, e ≠ .reset rom)
    (hstep : e = .step → ∀ x, nextInstr s ≠ some (.ldDtVx x)) (h : applyEvent e s = .next t) :
    t.dt.toNat = s.dt.toNat - if e = .tick then 1 else 0 := by
  cases e with
  | reset rom => exact absurd rfl (hreset rom)
  | step =>
    have hdt : t.dt = s.dt := by
      by_contra hne
      obtain ⟨x, hx⟩ := step_writes_delayTimer h hne
      exact hstep rfl x hx
    simp [hdt]
  | tick =>
    cases h
    simp
  | keyWrite k b =>
    cases h
    rfl
  | redrawClear =>
    cases h
    rfl

/-- A run that answers a state answers one after each event. -/
theorem runEvents_cons {e : Event} {es : List Event} (h : runEvents (e :: es) s = .next t) :
    ∃ u, applyEvent e s = .next u ∧ runEvents es u = .next t := by
  rw [runEvents] at h
  split at h
  · exact ⟨_, by assumption, h⟩
  · cases h
  · cases h

/-- Settles O52: only FX15 and FX18 are listed for a timer; over a run, by induction on the events, each `Tick` takes
one off and every other event none. -/
theorem timersFollowTicksNotSteps : Obligations.TimersFollowTicksNotSteps := by
  refine ⟨fun s t h => ⟨step_writes_delayTimer h, step_writes_soundTimer h⟩, fun es => ?runs⟩
  induction es with
  | nil =>
    intro s t _ h
    cases h
    rfl
  | cons e es ih =>
    intro s t ⟨hreset, hstep, hrest⟩ h
    obtain ⟨u, hu, ht⟩ := runEvents_cons h
    rw [ih u t (hrest u hu) ht, applyEvent_dt hreset hstep hu, List.count_cons]
    simp only [beq_iff_eq]
    omega

/-! ### Reset and program load -/

theorem reset_getV (r : Reg) : State.reset.getV r = 0 := by simp [State.getV, State.reset]
theorem reset_stack (j : Fin 16) : State.reset.stack[j] = 0 := by simp [State.reset]
theorem reset_pixel (x : Fin 64) (y : Fin 32) : State.reset.pixel x y = false := Framebuffer.pixel_replicate_zero x y

theorem unlisted_font (font : Font) (a : Fin 80) : unlisted font a.val = font[a] := dif_pos a.isLt
theorem unlisted_above_font (font : Font) {a : Nat} (h : 80 ≤ a) : unlisted font a = 0 := dif_neg (by omega)

/-- Settles O1: memory with nothing listed reads as the font and zero above. -/
theorem resetStateHoldsTheStatedValues : Obligations.ResetStateHoldsTheStatedValues :=
  ⟨unlisted_font _, fun _ h _ => unlisted_above_font _ h, reset_getV, rfl, rfl, reset_stack, rfl, rfl, rfl, reset_pixel,
    rfl, rfl⟩

/-- The state after `Reset` with the empty ROM, where the host's keys and the model's own fields stay (R220). -/
def State.cleared (s : State) : State := { State.reset with key := s.key, draws := s.draws, font := s.font }

theorem applyEvent_reset_next {rom : List Byte} (h : rom.length ≤ 3584) :
    applyEvent (.reset rom) s = .next (s.cleared.storeBytes 0x200 rom) := if_pos h

theorem applyEvent_reset_error {rom : List Byte} (h : 3584 < rom.length) :
    applyEvent (.reset rom) s = .fault .romLoadError := if_neg (by simpa using h)

/-- Settles O2: the cleared state with the ROM stored at 0x200, which lies above the font. -/
theorem romLoadReinitialisesEverythingButTheKeys : Obligations.RomLoadReinitialisesEverythingButTheKeys := by
  intro s rom
  refine ⟨fun h => ⟨_, applyEvent_reset_next h, fun j hj => State.byteAt_storeBytes_of_lt hj, fun a => ?font,
    fun a ha _ hrom => ?above, reset_getV, rfl, rfl, reset_stack, rfl, rfl, rfl, reset_pixel, rfl, rfl, rfl, rfl⟩,
    applyEvent_reset_error⟩
  case font => exact (State.byteAt_storeBytes_of_not (by omega)).trans (unlisted_font s.font a)
  case above => exact (State.byteAt_storeBytes_of_not hrom).trans (unlisted_above_font s.font ha)

/-! ### The invariants over a run -/

theorem pcBounded_of_reset_values (hpc : s.pc = 0x200) (hstack : s.stack = State.reset.stack)
    (hs : s.status = .running) : PcBounded s := by
  refine ⟨by rw [hpc]; decide, fun j => ?_, fun x hx => ?_⟩
  · rw [hstack, reset_stack]
    decide
  · cases hs.symm.trans hx

/-- Settles O55: nothing is listed, and `PC`, the stack and the status are those of reset. -/
theorem resetMeetsTheInvariants : Obligations.ResetMeetsTheInvariants :=
  ⟨Memory.wf_nil, pcBounded_of_reset_values rfl rfl rfl⟩

/-- Every event keeps both invariants. -/
theorem applyEvent_keeps_invariants {e : Event} (hc : MemoryCanonical s) (hb : PcBounded s)
    (h : applyEvent e s = .next t) : MemoryCanonical t ∧ PcBounded t := by
  cases e with
  | reset rom =>
    rcases le_or_gt rom.length 3584 with hrom | hrom
    · cases (applyEvent_reset_next hrom).symm.trans h
      exact ⟨State.wf_storeBytes (by simp only [rangeValid]; omega) Memory.wf_nil,
        pcBounded_of_reset_values rfl rfl rfl⟩
    · cases (applyEvent_reset_error hrom).symm.trans h
  | step => exact ⟨stepKeepsMemoryCanonical s t hc h, stepKeepsThePcBounded s t hb h⟩
  | tick | keyWrite | redrawClear =>
    cases h
    exact ⟨hc, hb⟩

/-- Settles O56: by induction on the events, each of which keeps both invariants. -/
theorem runsKeepTheInvariants : Obligations.RunsKeepTheInvariants := by
  intro es
  induction es with
  | nil =>
    intro s t hc hb h
    cases h
    exact ⟨hc, hb⟩
  | cons e es ih =>
    intro s t hc hb h
    obtain ⟨u, hu, ht⟩ := runEvents_cons h
    obtain ⟨hc', hb'⟩ := applyEvent_keeps_invariants hc hb hu
    exact ih u t hc' hb' ht

end Sys2Proof.Machine
end

section
/-! The call stack (spec/41_control_flow.md R100, R102): the call and the return at each height of the stack. -/

namespace Sys2Proof.Machine

variable {s : State}

/-! ### The four outcomes -/

theorem exec_ret : exec .ret s = returnFrom s := rfl
theorem exec_callNnn (nnn : Addr12) : exec (.callNnn nnn) s = callTo (target12 nnn) s := rfl

theorem sp_eq_zero_or_succ (s : State) : s.sp.val = 0 ∨ ∃ j : Fin 16, s.sp.val = j.val + 1 := by
  rcases Fin.eq_zero_or_eq_succ s.sp with h | ⟨j, h⟩
  · exact .inl (by simp [h])
  · exact .inr ⟨j, by simp [h]⟩

theorem sp_eq_sixteen_or_lt (s : State) : s.sp.val = 16 ∨ ∃ j : Fin 16, s.sp.val = j.val := by
  rcases Fin.eq_castSucc_or_eq_last s.sp with ⟨j, h⟩ | h
  · exact .inr ⟨j, by simp [h]⟩
  · exact .inl (by simp [h])

theorem exec_ret_next {j : Fin 16} (h : s.sp.val = j.val + 1) :
    exec .ret s = .next ((s.setStack s.stack ⟨j.val, by omega⟩).setPc s.stack[j]) := by
  rcases returnFrom_cases (s := s) with ⟨h0, he⟩ | ⟨h0, -⟩
  · rw [exec_ret, he]
    simp only [h, Nat.add_sub_cancel, Fin.getElem_fin]
  · omega

theorem exec_ret_halts (h : s.sp.val = 0) : exec .ret s = .next (s.setStatus (.halted .stackUnderflow)) :=
  exec_of_guardFails (.inr (.inl ⟨rfl, h, rfl⟩))

theorem exec_callNnn_next (nnn : Addr12) {j : Fin 16} (h : s.sp.val = j.val) :
    exec (.callNnn nnn) s =
      .next ((s.setStack (s.stack.set j (s.pc + 2)) ⟨j.val + 1, by omega⟩).setPc (target12 nnn)) := by
  rcases callTo_cases (s := s) (target12 nnn) with ⟨h16, he⟩ | ⟨h16, -⟩
  · rw [exec_callNnn, he]
    simp only [h]
  · omega

theorem exec_callNnn_halts (nnn : Addr12) (h : s.sp.val = 16) :
    exec (.callNnn nnn) s = .next (s.setStatus (.halted .stackOverflow)) :=
  exec_of_guardFails (.inl ⟨nnn, rfl, h, rfl⟩)

/-! ### Call and return -/

/-- Settles O23: the entry at the old height is written, and every other entry kept. -/
theorem callPushesTheNextAddress : Obligations.CallPushesTheNextAddress := by
  intro s nnn j hj
  refine ⟨_, exec_callNnn_next nnn hj, target12_toNat nnn, by rw [hj]; rfl, ?pushed, fun l hl => ?others, ?parts⟩
  case pushed => simp
  case others =>
    have hne : j.val ≠ l.val := fun e => hl (Fin.ext e.symm)
    simp [Vector.getElem_set_ne, hne]
  case parts => exact ((SameBut.refl _ s).setStack _ _ List.mem_cons_self).setPc _

/-- Settles O24: the full stack is the failing guard of 2NNN. -/
theorem callOnAFullStackOverflows : Obligations.CallOnAFullStackOverflows :=
  fun _ nnn h => exists_of_eq_setStatus (exec_callNnn_halts nnn h)

/-- Settles O25: the entry below `SP`, or the failing guard of 00EE. -/
theorem returnPopsTheLatestEntry : Obligations.ReturnPopsTheLatestEntry :=
  ⟨fun s _ h => ⟨_, exec_ret_next h, rfl, rfl, rfl,
      ((SameBut.refl _ s).setStack _ _ List.mem_cons_self).setPc _⟩,
    fun _ h => exists_of_eq_setStatus (exec_ret_halts h)⟩

/-- Settles O26: the return finds at its new `SP` the entry that the call wrote at its old one. -/
theorem callThenReturnComesBack : Obligations.CallThenReturnComesBack := by
  intro s nnn h
  obtain ⟨j, hj⟩ : ∃ j : Fin 16, s.sp.val = j.val := ⟨⟨s.sp.val, h⟩, rfl⟩
  refine ⟨_, exec_callNnn_next nnn hj, fun u hstack hsp => ⟨_, exec_ret_next (j := j) ?height, ?moves, ?sp⟩⟩
  case height => rw [hsp]; rfl
  case moves => simp [PcMoves, hstack]
  case sp => exact Fin.ext hj.symm

/-! ### The indexed jump -/

theorem exec_jpV0Nnn (nnn : Addr12) : exec (.jpV0Nnn nnn) s = jumpTo (target12 nnn + zext16 (s.getV 0)) s := rfl

/-- Settles O28: a 12-bit and an 8-bit number have a sum that fits 16 bits. -/
theorem indexedJumpAddsV0 : Obligations.IndexedJumpAddsV0 := by
  intro s nnn
  rw [exec_jpV0Nnn]
  refine ⟨_, jumpTo_eq _, ?sum, (SameBut.refl [] s).setPc _⟩
  have := nnn.isLt
  have := (s.getV 0).isLt
  rw [State.setPc_pc, BitVec.toNat_add, target12_toNat, zext16_toNat]
  omega

end Sys2Proof.Machine
end

section
/-! What no program can see (spec/10_state.md R18, R30): two states that differ at most in `ST`, `REDRAW` and the stack
entries that are not live take steps to states that again differ at most there. -/

namespace Sys2Proof.Machine

variable {s s' t t' : State} {i : Instr}

/-- The state with other contents in what no program can see: `ST`, `REDRAW`, and stack entries. -/
def State.withUnseen (s : State) (st : Byte) (redraw : Bool) (stack : Vector Word 16) : State :=
  ((s.setSt st).setRedraw redraw).setStack stack s.sp

/-- The live entries of `stack` are those of `s`. -/
def SameLive (s : State) (stack : Vector Word 16) : Prop := ∀ j : Fin 16, j.val < s.sp.val → stack[j] = s.stack[j]

theorem AgreeForPrograms.exists_withUnseen (h : AgreeForPrograms s s') :
    ∃ st redraw stack, SameLive s stack ∧ s' = s.withUnseen st redraw stack := by
  obtain ⟨_, _, _, _, stack, _, _, st, _, redraw, _, _, _, _⟩ := s'
  obtain ⟨rfl, rfl, rfl, rfl, rfl, hstack, rfl, rfl, rfl, rfl, rfl, rfl⟩ := h
  exact ⟨st, redraw, stack, hstack, rfl⟩

/-- Two states that are equal but for what no program can see agree, once their live entries do. -/
theorem agree_of_withUnseen_eq {st : Byte} {redraw : Bool} {stack : Vector Word 16}
    (hlive : ∀ j : Fin 16, j.val < t.sp.val → stack[j] = t.stack[j]) (h : t' = t.withUnseen st redraw stack) :
    AgreeForPrograms t t' := by
  subst h
  exact ⟨rfl, rfl, rfl, rfl, rfl, hlive, rfl, rfl, rfl, rfl, rfl, rfl⟩

theorem AgreeForPrograms.setPc (h : AgreeForPrograms t t') (w : Word) : AgreeForPrograms (t.setPc w) (t'.setPc w) := by
  obtain ⟨hmem, hv, hi, -, hrest⟩ := h
  exact ⟨hmem, hv, hi, rfl, hrest⟩

theorem AgreeForPrograms.setRegs (h : AgreeForPrograms t t') (v : Vector Byte 16) :
    AgreeForPrograms (t.setRegs v) (t'.setRegs v) := by
  obtain ⟨hmem, -, hrest⟩ := h
  exact ⟨hmem, rfl, hrest⟩

theorem AgreeForPrograms.setMem (h : AgreeForPrograms t t') (m : Memory) :
    AgreeForPrograms (t.setMem m) (t'.setMem m) := by
  obtain ⟨-, hrest⟩ := h
  exact ⟨rfl, hrest⟩

/-- Both outcomes are next states, and these agree. -/
def ResultsAgree (r r' : Result) : Prop := ∃ t t', r = .next t ∧ r' = .next t' ∧ AgreeForPrograms t t'

section
variable {st : Byte} {redraw : Bool} {stack : Vector Word 16}

/-! ### The instructions that use the stack -/

theorem exec_ret_agree (hlive : SameLive s stack) :
    ResultsAgree (exec .ret s) (exec .ret (s.withUnseen st redraw stack)) := by
  rcases sp_eq_zero_or_succ s with h | ⟨j, h⟩
  · exact ⟨_, _, exec_ret_halts h, exec_ret_halts h, agree_of_withUnseen_eq hlive rfl⟩
  · have hpc : stack[j] = s.stack[j] := hlive j (by omega)
    refine ⟨_, _, exec_ret_next h, exec_ret_next (s := s.withUnseen st redraw stack) h, ?_⟩
    exact ⟨rfl, rfl, rfl, hpc, rfl, fun l hl => hlive l (h ▸ Nat.lt_succ_of_lt hl), rfl, rfl, rfl, rfl, rfl, rfl⟩

/-- The entry that a call writes is the same in both, and the entries below it were live. -/
theorem SameLive.set {j : Fin 16} (hlive : SameLive s stack) (h : s.sp.val = j.val) (w : Word) (l : Fin 16)
    (hl : l.val < j.val + 1) : (stack.set j w)[l] = (s.stack.set j w)[l] := by
  simp only [Fin.getElem_fin, Vector.getElem_set]
  split
  · rfl
  · exact hlive l (by omega)

theorem exec_callNnn_agree (nnn : Addr12) (hlive : SameLive s stack) :
    ResultsAgree (exec (.callNnn nnn) s) (exec (.callNnn nnn) (s.withUnseen st redraw stack)) := by
  rcases sp_eq_sixteen_or_lt s with h | ⟨j, h⟩
  · exact ⟨_, _, exec_callNnn_halts nnn h, exec_callNnn_halts nnn h, agree_of_withUnseen_eq hlive rfl⟩
  · exact ⟨_, _, exec_callNnn_next nnn h, exec_callNnn_next (s := s.withUnseen st redraw stack) nnn h,
      rfl, rfl, rfl, rfl, rfl, fun l hl => hlive.set h _ l hl, rfl, rfl, rfl, rfl, rfl, rfl⟩

/-! ### The instructions that guard a range -/

theorem spriteCanvas_withUnseen (x y : Reg) (n : Nat) :
    spriteCanvas (s.withUnseen st redraw stack) x y n = spriteCanvas s x y n := rfl

theorem exec_drw_agree (x y : Reg) (n : Nat) (hlive : SameLive s stack) :
    ResultsAgree (exec (.drwVxVyN x y n) s) (exec (.drwVxVyN x y n) (s.withUnseen st redraw stack)) := by
  by_cases h : rangeValid s.base n
  · refine ⟨_, _, exec_drw_next x y h, exec_drw_next (s := s.withUnseen st redraw stack) x y h, ?_⟩
    rw [spriteCanvas_withUnseen]
    exact agree_of_withUnseen_eq hlive rfl
  · exact ⟨_, _, exec_drw_halts x y h, exec_drw_halts (s := s.withUnseen st redraw stack) x y h,
      agree_of_withUnseen_eq hlive rfl⟩

theorem exec_ldBVx_agree (x : Reg) (hlive : SameLive s stack) :
    ResultsAgree (exec (.ldBVx x) s) (exec (.ldBVx x) (s.withUnseen st redraw stack)) := by
  rcases le_or_gt (s.base + 2) 0xFFF with h | h
  · exact ⟨_, _, exec_ldBVx_next x h, exec_ldBVx_next (s := s.withUnseen st redraw stack) x h,
      ((agree_of_withUnseen_eq hlive rfl).setMem _).setPc _⟩
  · exact ⟨_, _, exec_ldBVx_halts x h, exec_ldBVx_halts (s := s.withUnseen st redraw stack) x h,
      agree_of_withUnseen_eq hlive rfl⟩

theorem exec_ldMemVx_agree (x : Reg) (hlive : SameLive s stack) :
    ResultsAgree (exec (.ldMemVx x) s) (exec (.ldMemVx x) (s.withUnseen st redraw stack)) := by
  rcases le_or_gt (s.base + x.val) 0xFFF with h | h
  · exact ⟨_, _, exec_ldMemVx_next x h, exec_ldMemVx_next (s := s.withUnseen st redraw stack) x h,
      ((agree_of_withUnseen_eq hlive rfl).setMem _).setPc _⟩
  · exact ⟨_, _, exec_ldMemVx_halts x h, exec_ldMemVx_halts (s := s.withUnseen st redraw stack) x h,
      agree_of_withUnseen_eq hlive rfl⟩

theorem exec_ldVxMem_agree (x : Reg) (hlive : SameLive s stack) :
    ResultsAgree (exec (.ldVxMem x) s) (exec (.ldVxMem x) (s.withUnseen st redraw stack)) := by
  rcases le_or_gt (s.base + x.val) 0xFFF with h | h
  · exact ⟨_, _, exec_ldVxMem_next x h, exec_ldVxMem_next (s := s.withUnseen st redraw stack) x h,
      ((agree_of_withUnseen_eq hlive rfl).setRegs _).setPc _⟩
  · exact ⟨_, _, exec_ldVxMem_halts x h, exec_ldVxMem_halts (s := s.withUnseen st redraw stack) x h,
      agree_of_withUnseen_eq hlive rfl⟩

/-! ### Every step -/

/-- No instruction reads `ST`, `REDRAW` or a stack entry that is not live: what the others compute is, as it stands, the
same from both states. -/
theorem exec_agree (i : Instr) (hlive : SameLive s stack) :
    ResultsAgree (exec i s) (exec i (s.withUnseen st redraw stack)) := by
  cases i
  case ret => exact exec_ret_agree hlive
  case callNnn nnn => exact exec_callNnn_agree nnn hlive
  case drwVxVyN x y n => exact exec_drw_agree x y n hlive
  case ldBVx x => exact exec_ldBVx_agree x hlive
  case ldMemVx x => exact exec_ldMemVx_agree x hlive
  case ldVxMem x => exact exec_ldVxMem_agree x hlive
  all_goals exact ⟨_, _, rfl, rfl, agree_of_withUnseen_eq hlive rfl⟩

theorem pollKeypad_agree (x : Reg) (hlive : SameLive s stack) :
    ResultsAgree (pollKeypad x s) (pollKeypad x (s.withUnseen st redraw stack)) := by
  cases hk : lowestKeyDown s.key with
  | none =>
    exact ⟨_, _, pollKeypad_of_none hk, pollKeypad_of_none (s := s.withUnseen st redraw stack) hk,
      agree_of_withUnseen_eq hlive rfl⟩
  | some k =>
    exact ⟨_, _, pollKeypad_of_some hk, pollKeypad_of_some (s := s.withUnseen st redraw stack) hk,
      agree_of_withUnseen_eq hlive rfl⟩

/-- Nor does fetch, decode or the poll read any of it. -/
theorem step_agree (hlive : SameLive s stack) : ResultsAgree (step s) (step (s.withUnseen st redraw stack)) := by
  cases hs : s.status with
  | halted k => exact ⟨_, _, step_of_halted hs, step_of_halted hs, agree_of_withUnseen_eq hlive rfl⟩
  | waitingForKey x =>
    rw [step_of_waiting hs, step_of_waiting (s := s.withUnseen st redraw stack) hs]
    exact pollKeypad_agree x hlive
  | running =>
    cases hf : fetchDecode s with
    | ok i =>
      rw [step_of_decoded hs hf, step_of_decoded (s := s.withUnseen st redraw stack) hs hf]
      exact exec_agree i hlive
    | error k =>
      exact ⟨_, _, step_of_fetchDecode_error hs hf,
        step_of_fetchDecode_error (s := s.withUnseen st redraw stack) hs hf, agree_of_withUnseen_eq hlive rfl⟩

end

/-- Settles O57: the second state is the first with other unseen contents, which no step reads. -/
theorem unseenStateNeverSteersAProgram : Obligations.UnseenStateNeverSteersAProgram := by
  intro s s' t t' hagree h h'
  obtain ⟨st, redraw, stack, hlive, rfl⟩ := hagree.exists_withUnseen
  obtain ⟨u, u', hu, hu', hagree'⟩ := step_agree (st := st) (redraw := redraw) hlive
  cases hu.symm.trans h
  cases hu'.symm.trans h'
  exact hagree'

end Sys2Proof.Machine
end

section
/-! The arithmetic instructions (spec/42_alu.md): those without flag are the shared write of one register, the flag
writers one shared write of flag and result. -/

namespace Sys2Proof.Machine

variable {s : State}

/-! ### The meanings through the shared operations -/

theorem exec_addVxNn (x : Reg) (nn : Byte) : exec (.addVxNn x nn) s = advance (s.setV x (s.getV x + nn)) := rfl
theorem exec_orVxVy (x y : Reg) : exec (.orVxVy x y) s = advance (s.setV x (s.getV x ||| s.getV y)) := rfl
theorem exec_andVxVy (x y : Reg) : exec (.andVxVy x y) s = advance (s.setV x (s.getV x &&& s.getV y)) := rfl
theorem exec_xorVxVy (x y : Reg) : exec (.xorVxVy x y) s = advance (s.setV x (s.getV x ^^^ s.getV y)) := rfl
theorem exec_addVxVy (x y : Reg) : exec (.addVxVy x y) s =
    advance (writeFlagThen x (carryFlag (s.getV x) (s.getV y)) (s.getV x + s.getV y) s) := rfl
theorem exec_subVxVy (x y : Reg) : exec (.subVxVy x y) s =
    advance (writeFlagThen x (noBorrowFlag (s.getV x) (s.getV y)) (s.getV x - s.getV y) s) := rfl
theorem exec_subnVxVy (x y : Reg) : exec (.subnVxVy x y) s =
    advance (writeFlagThen x (noBorrowFlag (s.getV y) (s.getV x)) (s.getV y - s.getV x) s) := rfl
theorem exec_shrVx (x y : Reg) : exec (.shrVx x y) s =
    advance (writeFlagThen x (shiftRightFlag (s.getV x)) (s.getV x >>> 1) s) := rfl
theorem exec_shlVx (x y : Reg) : exec (.shlVx x y) s =
    advance (writeFlagThen x (shiftLeftFlag (s.getV x)) (s.getV x <<< 1) s) := rfl
theorem exec_rndVxNn (x : Reg) (nn : Byte) : exec (.rndVxNn x nn) s =
    advance ((s.setV x (nn &&& Config.rnd s.draws)).countDraw) := rfl

/-! ### One register, without flag -/

/-- A property of the written byte is one of `V[X]` afterwards. -/
theorem advance_setV_exists_of {P : Byte → Prop} (x : Reg) {b : Byte} (hb : P b) (s : State) :
    ∃ t, advance (s.setV x b) = .next t ∧ P (t.getV x) ∧ PcMoves 2 s t ∧ RegsSameBut [x] s t ∧
      SameBut [.regs] s t := by
  obtain ⟨t, hnext, rfl, hframe⟩ := advance_setV_exists x b s
  exact ⟨t, hnext, hb, hframe⟩

/-- Settles O30: the sum of two bytes wraps. -/
theorem addImmediateWrapsWithoutFlag : Obligations.AddImmediateWrapsWithoutFlag := by
  intro s x nn
  rw [exec_addVxNn]
  exact advance_setV_exists_of (P := fun b => b.toNat = _) x (BitVec.toNat_add _ _) s

theorem advance_setV_exists_bits {f : Nat → Bool} (x : Reg) {b : Byte} (hb : ∀ k, b.getLsbD k = f k) (s : State) :
    ∃ t, advance (s.setV x b) = .next t ∧ (∀ k, (t.getV x).getLsbD k = f k) ∧ PcMoves 2 s t ∧ RegsSameBut [x] s t ∧
      SameBut [.regs] s t :=
  advance_setV_exists_of (P := fun b => ∀ k, b.getLsbD k = f k) x hb s

/-- Settles O31: the bits of the three operations on words. -/
theorem logicWorksBitByBit : Obligations.LogicWorksBitByBit := by
  intro s x y
  rw [exec_orVxVy, exec_andVxVy, exec_xorVxVy]
  exact ⟨advance_setV_exists_bits x (fun _ => BitVec.getLsbD_or) s,
    advance_setV_exists_bits x (fun _ => BitVec.getLsbD_and) s,
    advance_setV_exists_bits x (fun _ => BitVec.getLsbD_xor) s⟩

theorem and_and_not_self (nn r : Byte) : nn &&& r &&& ~~~nn = 0 := by
  ext k hk
  simp only [BitVec.getElem_and, BitVec.getElem_not, BitVec.ofNat_eq_ofNat, BitVec.getElem_zero]
  cases nn[k] <;> simp

/-- Settles O35: the masked byte, with the counter moved on. -/
theorem randomByteIsMasked : Obligations.RandomByteIsMasked := by
  intro s x nn
  rw [exec_rndVxNn]
  have written : ((s.setV x (nn &&& Config.rnd s.draws)).countDraw.setPc (s.pc + 2)).getV x =
      nn &&& Config.rnd s.draws := State.getV_setV_self ..
  refine ⟨_, advance_eq, written, ?masked, rfl, pcMoves_two, RegsSameBut.setV x _ s, ?parts⟩
  case masked => exact (congrArg (· &&& ~~~nn) written).trans (and_and_not_self nn _)
  case parts => exact (((SameBut.refl _ s).setV x _ (by decide)).countDraw (by decide)).setPc _

/-! ### Flag and result -/

theorem flagOf_toNat (p : Prop) [Decidable p] : (flagOf (decide p)).toNat = if p then 1 else 0 := by
  by_cases h : p <;> simp [flagOf, h]

theorem flagOf_bit_toNat (b : Bool) : (flagOf b).toNat = b.toNat := by cases b <;> rfl

/-- An instruction that writes a flag, then its result, and advances: what holds of the result holds of `V[X]`, the
flag is in `V[15]` unless `X` is 15, and everything else is unchanged. -/
theorem advance_writeFlagThen_exists {P : Byte → Prop} {n : Nat} (x : Reg) {flag result : Byte} (hresult : P result)
    (hflag : flag.toNat = n) (s : State) :
    ∃ t, advance (writeFlagThen x flag result s) = .next t ∧ P (t.getV x) ∧ (x ≠ regF → (t.getV regF).toNat = n) ∧
      PcMoves 2 s t ∧ RegsSameBut [regF, x] s t ∧ SameBut [.regs] s t := by
  refine ⟨_, advance_eq, ?result, fun hx => ?flag, ?moves, RegsSameBut.writeFlagThen x flag result s, ?parts⟩
  case result => rwa [State.getV_setPc, getV_writeFlagThen, if_pos rfl]
  case flag => rw [State.getV_setPc, getV_writeFlagThen, if_neg hx.symm, if_pos rfl, hflag]
  case moves => exact pcMoves_two (s := s)
  case parts => exact (((SameBut.refl _ s).setV regF flag (by decide)).setV x result (by decide)).setPc _

/-- Settles O32: the sum wraps, and the flag is the carry. -/
theorem addRegistersSetsTheCarry : Obligations.AddRegistersSetsTheCarry := by
  intro s x y
  rw [exec_addVxVy]
  exact advance_writeFlagThen_exists (P := fun b => b.toNat = _) x (BitVec.toNat_add _ _) (flagOf_toNat _) s

/-- The difference of two bytes is the least non-negative residue (R7). -/
theorem toNat_sub_eq_emod (a b : Byte) : ((a - b).toNat : Int) = ((a.toNat : Int) - b.toNat) % 256 := by
  have := a.isLt
  have := b.isLt
  rw [BitVec.toNat_sub]
  omega

/-- Settles O33: both differences are residues, and the flag compares the operands in the same order. -/
theorem subtractionsSetNoBorrow : Obligations.SubtractionsSetNoBorrow := by
  intro s x y
  rw [exec_subVxVy, exec_subnVxVy]
  exact ⟨advance_writeFlagThen_exists (P := fun b => (b.toNat : Int) = _) x (toNat_sub_eq_emod _ _) (flagOf_toNat _) s,
    advance_writeFlagThen_exists (P := fun b => (b.toNat : Int) = _) x (toNat_sub_eq_emod _ _) (flagOf_toNat _) s⟩

theorem toNat_shiftRight_one (b : Byte) : (b >>> 1).toNat = b.toNat / 2 := by
  rw [BitVec.toNat_ushiftRight, Nat.shiftRight_eq_div_pow]

theorem toNat_shiftLeft_one (b : Byte) : (b <<< 1).toNat = b.toNat * 2 % 256 := by
  rw [BitVec.toNat_shiftLeft, Nat.shiftLeft_eq]

theorem shiftRightFlag_toNat (b : Byte) : (shiftRightFlag b).toNat = b.toNat % 2 := by
  rw [shiftRightFlag, flagOf_bit_toNat, BitVec.getLsbD, Nat.toNat_testBit]
  simp

theorem shiftLeftFlag_toNat (b : Byte) : (shiftLeftFlag b).toNat = b.toNat / 128 := by
  have := b.isLt
  rw [shiftLeftFlag, flagOf_bit_toNat, BitVec.getLsbD, Nat.toNat_testBit]
  omega

/-- Settles O34: halving and doubling, with the bit shifted out as the flag. -/
theorem shiftsMoveOneBitIntoTheFlag : Obligations.ShiftsMoveOneBitIntoTheFlag := by
  intro s x y
  rw [exec_shrVx, exec_shlVx]
  exact ⟨advance_writeFlagThen_exists (P := fun b => b.toNat = _) x (toNat_shiftRight_one _) (shiftRightFlag_toNat _) s,
    advance_writeFlagThen_exists (P := fun b => b.toNat = _) x (toNat_shiftLeft_one _) (shiftLeftFlag_toNat _) s⟩

end Sys2Proof.Machine
end

section
/-! The index and memory instructions (spec/43_index_memory.md): `I` written, bytes stored in a valid range, registers
loaded from one, and the four range instructions that halt. -/

namespace Sys2Proof.Machine

variable {s : State}

/-! ### `I` -/

theorem exec_addIVx (x : Reg) : exec (.addIVx x) s = advance (s.setI (s.i + zext16 (s.getV x))) := rfl
theorem exec_ldFVx (x : Reg) : exec (.ldFVx x) s = advance (s.setI (glyphAddress (s.getV x))) := rfl

theorem glyphAddress_toNat (b : Byte) : (glyphAddress b).toNat = b.toNat * 5 := by
  have := b.isLt
  rw [glyphAddress, BitVec.toNat_mul, zext16_toNat]
  simp only [BitVec.toNat_ofNat]
  omega

/-- Settles O37: both are the shared write of `I`. -/
theorem indexAddAndGlyphAddress : Obligations.IndexAddAndGlyphAddress := by
  intro s x
  rw [exec_addIVx, exec_ldFVx]
  obtain ⟨t, ht, hi, htframe⟩ := advance_setI_exists (s.i + zext16 (s.getV x)) s
  obtain ⟨u, hu, hi', huframe⟩ := advance_setI_exists (glyphAddress (s.getV x)) s
  refine ⟨⟨t, ht, ?sum, htframe⟩, u, hu, ?glyph, huframe⟩
  case sum => rw [hi, BitVec.toNat_add, zext16_toNat]
  case glyph => rw [hi', glyphAddress_toNat]

/-! ### Stores -/

/-- Bytes stored, then the advance: each byte is in place, every other byte, `PC`'s move and every other part are those
of a completed instruction. -/
theorem exists_of_eq_storeBytes {r : Result} {bs : List Byte}
    (h : r = .next ((s.storeBytes s.base bs).setPc (s.pc + 2))) :
    ∃ t, r = .next t ∧ (∀ j (hj : j < bs.length), t.byteAt (s.base + j) = bs[j]) ∧
      BytesSameBut s.base bs.length s t ∧ PcMoves 2 s t ∧ SameBut [.memory] s t :=
  ⟨_, h, fun _ hj => State.byteAt_storeBytes_of_lt hj, fun _ ha => State.byteAt_storeBytes_of_not ha, pcMoves_two,
    ((SameBut.refl _ s).storeBytes _ bs List.mem_cons_self).setPc _⟩

/-- Settles O38: the three digits are stored in ascending order. -/
theorem bcdStoresThreeDigits : Obligations.BcdStoresThreeDigits := by
  intro s x h
  obtain ⟨t, ht, hbytes, hframe⟩ := exists_of_eq_storeBytes (exec_ldBVx_next x h)
  refine ⟨t, ht, ?hundreds, ?tens, ?ones, hframe⟩
  case hundreds => exact (congrArg BitVec.toNat (hbytes 0 (by simp))).trans BitVec.toNat_udiv
  case tens =>
    rw [hbytes 1 (by simp)]
    simp [bcdDigits]
  case ones => exact (congrArg BitVec.toNat (hbytes 2 (by simp))).trans BitVec.toNat_umod

/-- Settles O39: the registers are stored in ascending order. -/
theorem storeRegistersFillsTheRange : Obligations.StoreRegistersFillsTheRange := by
  intro s x h
  obtain ⟨t, ht, hbytes, hother, hframe⟩ := exists_of_eq_storeBytes (exec_ldMemVx_next x h)
  rw [State.length_lowRegs] at hother
  refine ⟨t, ht, fun j hj => ?stored, hother, hframe⟩
  have hj' : j.val < (s.lowRegs x).length := by simpa [Nat.lt_succ_iff] using hj
  rw [hbytes j.val hj', State.getElem_lowRegs]

/-- Settles O42: the fetch after the store reads the stored `V[0]` and `V[1]`. -/
theorem storeReachesTheNextFetch : Obligations.StoreReachesTheNextFetch := by
  intro s x hx hbase hrange
  obtain ⟨t, ht, hbytes, -, hpc, -⟩ := storeRegistersFillsTheRange s x hrange
  have hpc' : t.pc.toNat = s.base := by
    rw [hbase, hpc]
    omega
  refine ⟨t, _, ht, fetch_ok (by omega), ?_⟩
  rw [opcodeOf_toNat, hpc', ← hbytes 0 (Fin.zero_le x), ← hbytes 1 (Fin.le_def.mpr hx)]
  rfl

/-! ### Loads -/

/-- Settles O40: the registers up to `X` take the bytes read, those above have no byte. -/
theorem loadRegistersReadsTheRange : Obligations.LoadRegistersReadsTheRange := by
  intro s x h
  refine ⟨_, exec_ldVxMem_next x h, fun j hj => ?loaded, fun j hj => ?above, pcMoves_two, ?parts⟩
  case loaded =>
    rw [State.getV_setPc, State.getV_loadRegs, List.getD_eq_getElem _ _ (by simpa [Nat.lt_succ_iff] using hj),
      List.getElem_map, List.getElem_range]
  case above => rw [State.getV_setPc, State.getV_loadRegs_of_le (by simpa using hj)]
  case parts => exact ((SameBut.refl _ s).setRegs _ List.mem_cons_self).setPc _

/-! ### Ranges that leave memory -/

/-- Settles O41: each is the failing guard of its instruction. -/
theorem rangeFaultsHaveNoEffect : Obligations.RangeFaultsHaveNoEffect := by
  intro s x y n
  exact ⟨fun hn h => exists_of_eq_setStatus (exec_drw_halts x y (by simp only [rangeValid]; omega)),
    fun h => exists_of_eq_setStatus (exec_ldBVx_halts x h),
    fun h => ⟨exists_of_eq_setStatus (exec_ldMemVx_halts x h), exists_of_eq_setStatus (exec_ldVxMem_halts x h)⟩⟩

end Sys2Proof.Machine
end

section
/-! The display instructions (spec/44_display.md): the canvas after a draw in terms of the covered pixels of R162, and
the draw as a whole. -/

namespace Sys2Proof.Machine

variable {s : State}

/-- Settles O43: the cleared grid, with the flag set. -/
theorem clearScreenClearsEveryPixel : Obligations.ClearScreenClearsEveryPixel :=
  fun s => ⟨((s.setFb (Vector.replicate 32 0)).setRedraw true).setPc (s.pc + 2), rfl,
    Framebuffer.pixel_replicate_zero, rfl, pcMoves_two,
    (((SameBut.refl _ s).setFb _ (by decide)).setRedraw true (by decide)).setPc _⟩

/-- The pixel is covered by the sprite that DXYN draws from `s`. -/
def Covered (s : State) (x y : Reg) (n : Nat) (px : Fin 64) (py : Fin 32) : Prop :=
  CoveredBySprite s s.base n (s.getV x).toNat (s.getV y).toNat px py

theorem spriteCanvas_pixel (x y : Reg) {n : Nat} (hn : n ≤ 15) (px : Fin 64) (py : Fin 32) :
    Framebuffer.pixel (spriteCanvas s x y n).1 px py = true ↔ ¬(s.pixel px py = true ↔ Covered s x y n px py) := by
  rw [spriteCanvas, (drawSprite_spec _ _ _ _ (by simp; omega)).1, inRows_iff_covered]
  rfl

theorem spriteCanvas_collision (x y : Reg) {n : Nat} (hn : n ≤ 15) :
    (spriteCanvas s x y n).2 = true ↔ ∃ px py, s.pixel px py = true ∧ Covered s x y n px py := by
  rw [spriteCanvas, (drawSprite_spec _ _ _ _ (by simp; omega)).2]
  simp only [inRows_iff_covered, Bool.false_eq_true, false_or]
  exact exists_congr fun px => exists_congr fun py => and_comm

theorem collisionFlag_eq_one (c : Bool) : collisionFlag c = 1 ↔ c = true := by cases c <;> decide
theorem collisionFlag_eq_zero_or_one (c : Bool) : collisionFlag c = 0 ∨ collisionFlag c = 1 := by cases c <;> decide

/-- The state after a draw whose range is valid. -/
def State.drawn (s : State) (x y : Reg) (n : Nat) : State :=
  (((s.setFb (spriteCanvas s x y n).1).setV regF (collisionFlag (spriteCanvas s x y n).2)).setRedraw true).setPc
    (s.pc + 2)

theorem getV_drawn_regF (x y : Reg) (n : Nat) :
    (s.drawn x y n).getV regF = collisionFlag (spriteCanvas s x y n).2 := State.getV_setV_self ..

theorem getV_drawn_of_ne (x y : Reg) (n : Nat) {r : Reg} (hr : r ≠ regF) : (s.drawn x y n).getV r = s.getV r :=
  State.getV_setV_of_ne (s.setFb _) _ hr

theorem pixel_drawn (x y : Reg) {n : Nat} (hn : n ≤ 15) (px : Fin 64) (py : Fin 32) :
    (s.drawn x y n).pixel px py = true ↔ ¬(s.pixel px py = true ↔ Covered s x y n px py) :=
  spriteCanvas_pixel x y hn px py

theorem drawn_collision (x y : Reg) {n : Nat} (hn : n ≤ 15) :
    (s.drawn x y n).getV regF = 1 ↔ ∃ px py, s.pixel px py = true ∧ Covered s x y n px py := by
  rw [getV_drawn_regF, collisionFlag_eq_one, spriteCanvas_collision x y hn]

/-- Settles O44: the canvas after the draw. -/
theorem drawTogglesExactlyTheCoveredPixels : Obligations.DrawTogglesExactlyTheCoveredPixels :=
  fun s x y n hn h => ⟨s.drawn x y n, exec_drw_next x y h, pixel_drawn x y hn⟩

/-- Settles O45: the flag is the collision on the canvas, and the draw writes only `V[15]`, the display and the flag. -/
theorem drawReportsTheCollision : Obligations.DrawReportsTheCollision := by
  intro s x y n hn h
  refine ⟨s.drawn x y n, exec_drw_next x y h, ?bit, drawn_collision x y hn, rfl, fun r hr => ?registers, pcMoves_two,
    ?parts⟩
  case bit =>
    rw [getV_drawn_regF]
    exact collisionFlag_eq_zero_or_one _
  case registers => exact getV_drawn_of_ne x y n (List.ne_of_not_mem_cons hr)
  case parts =>
    exact ((((SameBut.refl _ s).setFb _ (by decide)).setV regF _ (by decide)).setRedraw true (by decide)).setPc _

/-- A draw leaves the sprite and its place as they were, unless a coordinate is `V[15]`. -/
theorem covered_drawn {x y : Reg} (hx : x ≠ regF) (hy : y ≠ regF) (n : Nat) (px : Fin 64) (py : Fin 32) :
    Covered (s.drawn x y n) x y n px py ↔ Covered s x y n px py := by
  simp only [Covered, getV_drawn_of_ne x y n hx, getV_drawn_of_ne x y n hy]
  rfl

/-- Settles O46: the second draw covers the same pixels, so each toggles twice, and a covered pixel is set before the
second draw exactly if it was unset before the first. -/
theorem drawingTwiceRestoresTheScreen : Obligations.DrawingTwiceRestoresTheScreen := by
  intro s x y n hx hy hn h
  have hpixel := pixel_drawn (s := s) x y hn
  refine ⟨s.drawn x y n, (s.drawn x y n).drawn x y n, exec_drw_next x y h, exec_drw_next (s := s.drawn x y n) x y h,
    fun px py => ?pixels, fun a => rfl, ?collision⟩
  case pixels =>
    rw [Bool.eq_iff_iff, pixel_drawn x y hn, covered_drawn hx hy, hpixel]
    tauto
  case collision =>
    rw [drawn_collision x y hn]
    refine exists_congr fun px => exists_congr fun py => ?_
    rw [covered_drawn hx hy, hpixel, ← Bool.not_eq_true]
    show _ ↔ _ ∧ Covered s x y n px py
    tauto

end Sys2Proof.Machine
end

section
/-! The keypad instructions (spec/45_keypad_timers.md R170 to R172): two skips by the selected key, and the wait. -/

namespace Sys2Proof.Machine

variable {s : State}

theorem exec_skpVx (x : Reg) : exec (.skpVx x) s = skipIf (s.keyDown x) s := rfl
theorem exec_sknpVx (x : Reg) : exec (.sknpVx x) s = skipIf (!s.keyDown x) s := rfl
theorem exec_ldVxK (x : Reg) : exec (.ldVxK x) s = .next (s.setStatus (.waitingForKey x)) := rfl

theorem keyDown_eq {x : Reg} {k : Key} (h : k.val = (s.getV x).toNat % 16) : s.keyDown x = s.key[k] := by
  obtain rfl : k = keyIndex (s.getV x) := Fin.ext h
  rfl

/-- Settles O47: both skips test the key of the low nibble. -/
theorem keySkipsReadTheSelectedKey : Obligations.KeySkipsReadTheSelectedKey := by
  intro s x k hk
  rw [exec_skpVx, exec_sknpVx, keyDown_eq hk]
  exact ⟨skipIf_exists_pcMoves Iff.rfl, skipIf_exists_pcMoves (by simp)⟩

/-- Settles O48: only the status is set. -/
theorem waitForKeyEntersTheWait : Obligations.WaitForKeyEntersTheWait :=
  fun _ x => exists_of_eq_setStatus (exec_ldVxK x)

end Sys2Proof.Machine
end

section
/-! Canonical memories (spec/20_memory.md section 1): the cells of a canonical list are exactly what its reads show. -/

namespace Sys2Proof.Machine

variable {m : Memory} {font : Font}

/-- A canonical list has the cell `(a, b)` exactly if `a` reads as `b` and `b` is not what it would read unlisted. -/
theorem Memory.mem_iff_read (h : m.wf font) (a : Nat) (b : Byte) :
    (a, b) ∈ m ↔ m.read font a = b ∧ b ≠ unlisted font a := by
  obtain ⟨hrising, hcells⟩ := h
  induction m with
  | nil =>
    rw [Memory.read_nil]
    exact ⟨fun hmem => absurd hmem List.not_mem_nil, fun ⟨hb, hne⟩ => absurd hb.symm hne⟩
  | cons cell rest ih =>
    obtain ⟨c, d⟩ := cell
    obtain ⟨hfirst, hrest⟩ := List.pairwise_cons.mp hrising
    rw [Memory.read, List.mem_cons]
    by_cases hac : a = c
    · subst hac
      have hd : d ≠ unlisted font a := (hcells (a, d) List.mem_cons_self).2
      rw [if_pos rfl]
      constructor
      · rintro (hb | hmem)
        · cases hb
          exact ⟨rfl, hd⟩
        · exact absurd (hfirst _ hmem) (Nat.lt_irrefl a)
      · rintro ⟨rfl, -⟩
        exact .inl rfl
    · rw [if_neg hac, ← ih hrest fun e he => hcells e (List.mem_cons_of_mem _ he)]
      exact or_iff_right fun hb => hac (congrArg Prod.fst hb)

/-- Settles O4: both lists have the cells that the common reads show, in rising order. -/
theorem canonicalMemoriesWithEqualReadsAreEqual : Obligations.CanonicalMemoriesWithEqualReadsAreEqual := by
  intro font m m' h h' hread
  have : Std.Irrefl fun c d : Host.Cell => c.1 < d.1 := ⟨fun _ => Nat.lt_irrefl _⟩
  have : Std.Antisymm fun c d : Host.Cell => c.1 < d.1 := ⟨fun _ _ hcd hdc => absurd hdc (Nat.lt_asymm hcd)⟩
  refine List.Pairwise.eq_of_mem_iff h.1 h'.1 fun ⟨a, b⟩ => ?_
  rw [Memory.mem_iff_read h, Memory.mem_iff_read h', hread a]

end Sys2Proof.Machine
end

section
/-! Encoding (spec/30_encoding.md R62, R64, R68): the fields of an encoded word, the word made of its fields, the two
round trips, the fixed bits of each row, and the unknown words. -/

namespace Sys2Proof

variable {op : Word} {i : Instr}

/-! ### The fields of an encoded word -/

section
variable {f : Nat} (x y : Reg) (nn : Byte) (nnn : Addr12)

theorem fieldF_encodeA (hf : f < 16) : fieldF (encodeA f nnn) = f := by
  have := nnn.isLt
  rw [fieldF_eq, encodeA_toNat _ _ hf]
  omega

theorem fieldNNN_encodeA (hf : f < 16) : fieldNNN (encodeA f nnn) = nnn := by
  have := nnn.isLt
  apply BitVec.eq_of_toNat_eq
  rw [fieldNNN_toNat, encodeA_toNat _ _ hf]
  omega

theorem fieldF_encodeXI (hf : f < 16) : fieldF (encodeXI f x nn) = f := by
  have := nn.isLt
  have := x.isLt
  rw [fieldF_eq, encodeXI_toNat _ _ _ hf]
  omega

theorem fieldX_encodeXI (hf : f < 16) : fieldX (encodeXI f x nn) = x := by
  have := nn.isLt
  have := x.isLt
  apply Fin.ext
  rw [fieldX_val, encodeXI_toNat _ _ _ hf]
  omega

theorem fieldNN_encodeXI (hf : f < 16) : fieldNN (encodeXI f x nn) = nn := by
  have := nn.isLt
  apply BitVec.eq_of_toNat_eq
  rw [fieldNN_toNat, encodeXI_toNat _ _ _ hf]
  omega

theorem encodeX_eq_encodeXI {low : Nat} (hl : low < 256) : encodeX f x low = encodeXI f x (BitVec.ofNat 8 low) := by
  rw [encodeX, encodeXI, BitVec.toNat_ofNat, Nat.mod_eq_of_lt hl]

section
variable {n : Nat} (hf : f < 16) (hn : n < 16)
include hf hn

theorem fieldF_encodeXYN : fieldF (encodeXYN f x y n) = f := by
  have := x.isLt
  have := y.isLt
  rw [fieldF_eq, encodeXYN_toNat _ _ _ _ hf hn]
  omega

theorem fieldX_encodeXYN : fieldX (encodeXYN f x y n) = x := by
  have := x.isLt
  have := y.isLt
  apply Fin.ext
  rw [fieldX_val, encodeXYN_toNat _ _ _ _ hf hn]
  omega

theorem fieldY_encodeXYN : fieldY (encodeXYN f x y n) = y := by
  have := y.isLt
  apply Fin.ext
  rw [fieldY_val, encodeXYN_toNat _ _ _ _ hf hn]
  omega

theorem fieldN_encodeXYN : fieldN (encodeXYN f x y n) = n := by
  rw [fieldN_eq, encodeXYN_toNat _ _ _ _ hf hn]
  omega

end
end

/-! ### The two round trips -/

/-- The decoder reads back the word of a well-formed instruction. -/
theorem decodeOp_encode (h : WellFormed i = true) : decodeOp (encode i) = some i := by
  cases i
  case cls => rfl
  case ret => rfl
  case drwVxVyN x y n =>
    have hn : n < 16 := Nat.lt_succ_of_le (of_decide_eq_true h)
    simp only [encode, decodeOp, fieldF_encodeXYN x y (show 13 < 16 by decide) hn,
      fieldX_encodeXYN x y (show 13 < 16 by decide) hn, fieldY_encodeXYN x y (show 13 < 16 by decide) hn,
      fieldN_encodeXYN x y (show 13 < 16 by decide) hn]
  case jpNnn | callNnn | ldINnn | jpV0Nnn => simp [encode, decodeOp, fieldF_encodeA, fieldNNN_encodeA]
  case seVxNn | sneVxNn | ldVxNn | addVxNn | rndVxNn =>
    simp [encode, decodeOp, fieldF_encodeXI, fieldX_encodeXI, fieldNN_encodeXI]
  case skpVx | sknpVx =>
    simp [encode, encodeX_eq_encodeXI, decodeOp, decodeFamilyE, fieldF_encodeXI, fieldX_encodeXI, fieldNN_encodeXI]
  case ldVxDt | ldVxK | ldDtVx | ldStVx | addIVx | ldFVx | ldBVx | ldMemVx | ldVxMem =>
    simp [encode, encodeX_eq_encodeXI, decodeOp, decodeFamilyF, fieldF_encodeXI, fieldX_encodeXI, fieldNN_encodeXI]
  all_goals
    simp [encode, decodeOp, decodeFamily8, fieldF_encodeXYN, fieldX_encodeXYN, fieldY_encodeXYN, fieldN_encodeXYN]

/-- Settles O5: the two bytes make the word again, and the decoder reads it back. -/
theorem decodeOfEncodeIsTheInstruction : Obligations.DecodeOfEncodeIsTheInstruction := by
  intro i rest h
  have hbytes := decode_bytes (encode i) rest
  rw [decodeOp_encode h] at hbytes
  exact hbytes

/-! ### A word is made of its fields -/

section
variable {f : Nat} (hf : fieldF op = f)
include hf

theorem encodeA_fields : encodeA f (fieldNNN op) = op := by
  have := op.isLt
  rw [fieldF_eq] at hf
  apply BitVec.eq_of_toNat_eq
  rw [encodeA_toNat _ _ (by omega), fieldNNN_toNat]
  omega

theorem encodeXI_fields : encodeXI f (fieldX op) (fieldNN op) = op := by
  have := op.isLt
  rw [fieldF_eq] at hf
  apply BitVec.eq_of_toNat_eq
  rw [encodeXI_toNat _ _ _ (by omega), fieldX_val, fieldNN_toNat]
  omega

theorem encodeXYN_fields {n : Nat} (hn : fieldN op = n) : encodeXYN f (fieldX op) (fieldY op) n = op := by
  have := op.isLt
  rw [fieldF_eq] at hf
  rw [fieldN_eq] at hn
  apply BitVec.eq_of_toNat_eq
  rw [encodeXYN_toNat _ _ _ _ (by omega) (by omega), fieldX_val, fieldY_val]
  omega

theorem encodeX_fields {low : Nat} (hl : (fieldNN op).toNat = low) : encodeX f (fieldX op) low = op := by
  subst hl
  exact encodeXI_fields hf

end

/-! ### Every word that decodes is the word of its instruction -/

theorem encode_of_decodeFamily8 (hf : fieldF op = 8) (h : decodeFamily8 op = some i) :
    encode i = op ∧ WellFormed i = true := by
  unfold decodeFamily8 at h
  split at h <;> cases h <;> exact ⟨encodeXYN_fields hf (by assumption), rfl⟩

theorem encode_of_decodeFamilyE (hf : fieldF op = 14) (h : decodeFamilyE op = some i) :
    encode i = op ∧ WellFormed i = true := by
  unfold decodeFamilyE at h
  split at h <;> cases h <;> exact ⟨encodeX_fields hf (by assumption), rfl⟩

theorem encode_of_decodeFamilyF (hf : fieldF op = 15) (h : decodeFamilyF op = some i) :
    encode i = op ∧ WellFormed i = true := by
  unfold decodeFamilyF at h
  split at h <;> cases h <;> exact ⟨encodeX_fields hf (by assumption), rfl⟩

theorem encode_of_decodeFamily0 (h : decodeFamily0 op = some i) : encode i = op ∧ WellFormed i = true := by
  unfold decodeFamily0 at h
  split at h
  · cases h
    exact ⟨by simp [*, encode], rfl⟩
  · split at h
    · cases h
      exact ⟨by simp [*, encode], rfl⟩
    · cases h

theorem fieldN_le_fifteen (op : Word) : fieldN op ≤ 15 := Nat.lt_succ_iff.mp (nibble op 0).isLt

/-- Every word that decodes is the word of its instruction, which is well formed. -/
theorem encode_of_decodeOp (h : decodeOp op = some i) : encode i = op ∧ WellFormed i = true := by
  unfold decodeOp at h
  split at h
  case h_1 => exact encode_of_decodeFamily0 h
  case h_2 hf | h_3 hf | h_11 hf | h_12 hf =>
    cases h
    exact ⟨encodeA_fields hf, rfl⟩
  case h_4 hf | h_5 hf | h_7 hf | h_8 hf | h_13 hf =>
    cases h
    exact ⟨encodeXI_fields hf, rfl⟩
  case h_6 hf | h_10 hf =>
    obtain ⟨hn, hi⟩ := Option.ite_none_right_eq_some.mp h
    cases hi
    exact ⟨encodeXYN_fields hf hn, rfl⟩
  case h_9 hf => exact encode_of_decodeFamily8 hf h
  case h_14 hf =>
    cases h
    exact ⟨encodeXYN_fields hf rfl, decide_eq_true (fieldN_le_fifteen op)⟩
  case h_15 hf => exact encode_of_decodeFamilyE hf h
  case h_16 hf => exact encode_of_decodeFamilyF hf h
  case h_17 => cases h

/-- Settles O6: the decoder reads every field of the word, and the encoder puts each back. -/
theorem encodeOfDecodeIsTheWord : Obligations.EncodeOfDecodeIsTheWord := fun _ _ => encode_of_decodeOp

/-! ### The fixed bits of a row -/

open Laws.MatchesRow in
/-- The fixed bits of the row of every instruction, row by row. -/
theorem matchesRow : ∀ i, Statement i
  | .cls => cls
  | .ret => ret
  | .jpNnn nnn => jpNnn nnn
  | .callNnn nnn => callNnn nnn
  | .seVxNn x nn => seVxNn x nn
  | .sneVxNn x nn => sneVxNn x nn
  | .seVxVy x y => seVxVy x y
  | .ldVxNn x nn => ldVxNn x nn
  | .addVxNn x nn => addVxNn x nn
  | .ldVxVy x y => ldVxVy x y
  | .orVxVy x y => orVxVy x y
  | .andVxVy x y => andVxVy x y
  | .xorVxVy x y => xorVxVy x y
  | .addVxVy x y => addVxVy x y
  | .subVxVy x y => subVxVy x y
  | .shrVx x y => shrVx x y
  | .subnVxVy x y => subnVxVy x y
  | .shlVx x y => shlVx x y
  | .sneVxVy x y => sneVxVy x y
  | .ldINnn nnn => ldINnn nnn
  | .jpV0Nnn nnn => jpV0Nnn nnn
  | .rndVxNn x nn => rndVxNn x nn
  | .drwVxVyN x y n => drwVxVyN x y n
  | .skpVx x => skpVx x
  | .sknpVx x => sknpVx x
  | .ldVxDt x => ldVxDt x
  | .ldVxK x => ldVxK x
  | .ldDtVx x => ldDtVx x
  | .ldStVx x => ldStVx x
  | .addIVx x => addIVx x
  | .ldFVx x => ldFVx x
  | .ldBVx x => ldBVx x
  | .ldMemVx x => ldMemVx x
  | .ldVxMem x => ldVxMem x

theorem fieldF_of_fixedFamily {f : Nat} (h : ∀ g ∈ fixedFamily f, g.holds op) : fieldF op = f := by
  simpa [fixedFamily, FixedField.holds, fieldF_eq] using h

theorem fields_of_fixedXY {f n : Nat} (h : ∀ g ∈ fixedXY f n, g.holds op) : fieldF op = f ∧ fieldN op = n := by
  simpa [fixedXY, FixedField.holds, fieldF_eq, fieldN_eq, and_comm] using h

theorem fields_of_fixedX {f low : Nat} (h : ∀ g ∈ fixedX f low, g.holds op) :
    fieldF op = f ∧ (fieldNN op).toNat = low := by
  simpa [fixedX, FixedField.holds, fieldF_eq, fieldNN_toNat, and_comm] using h

theorem eq_of_fixed_word {w : Word} (h : ∀ g ∈ [FixedField.mk 15 0 w.toNat], g.holds op) : op = w := by
  have := op.isLt
  apply BitVec.eq_of_toNat_eq
  simpa [FixedField.holds, Nat.mod_eq_of_lt this] using h

/-- A word with the fixed bits of a row decodes to an instruction of that row. -/
theorem exists_decodeOp_of_fixedFields (h : ∀ f ∈ i.fixedFields, f.holds op) :
    ∃ j, decodeOp op = some j ∧ j.fixedFields = i.fixedFields := by
  cases i
  case cls =>
    cases eq_of_fixed_word (w := 0x00E0) h
    exact ⟨.cls, rfl, rfl⟩
  case ret =>
    cases eq_of_fixed_word (w := 0x00EE) h
    exact ⟨.ret, rfl, rfl⟩
  case jpNnn | callNnn | seVxNn | sneVxNn | ldVxNn | addVxNn | ldINnn | jpV0Nnn | rndVxNn | drwVxVyN =>
    simp [decodeOp, fieldF_of_fixedFamily h, Instr.fixedFields]
  case seVxVy | sneVxVy =>
    obtain ⟨hf, hn⟩ := fields_of_fixedXY h
    simp [decodeOp, hf, hn, Instr.fixedFields]
  case skpVx | sknpVx =>
    obtain ⟨hf, hl⟩ := fields_of_fixedX h
    simp [decodeOp, decodeFamilyE, hf, hl, Instr.fixedFields]
  case ldVxDt | ldVxK | ldDtVx | ldStVx | addIVx | ldFVx | ldBVx | ldMemVx | ldVxMem =>
    obtain ⟨hf, hl⟩ := fields_of_fixedX h
    simp [decodeOp, decodeFamilyF, hf, hl, Instr.fixedFields]
  all_goals
    obtain ⟨hf, hn⟩ := fields_of_fixedXY h
    simp [decodeOp, decodeFamily8, hf, hn, Instr.fixedFields]

/-- Settles O7: the fixed bits decide the decoder's branch, and the word of the instruction it gives has them. -/
theorem decoderFollowsTheOpcodeTable : Obligations.DecoderFollowsTheOpcodeTable := by
  intro op i
  refine ⟨exists_decodeOp_of_fixedFields, fun ⟨j, hj, hrow⟩ => ?_⟩
  obtain ⟨rfl, hwf⟩ := encode_of_decodeOp hj
  exact hrow ▸ matchesRow j hwf

/-! ### The unknown words (R68) -/

theorem decodeFamily0_eq_none : decodeFamily0 op = none ↔ op.toNat ≠ 0x00E0 ∧ op.toNat ≠ 0x00EE := by
  simp only [decodeFamily0, ← BitVec.toNat_inj, BitVec.toNat_ofNat]
  split_ifs <;> simp_all

theorem decodeFamily8_eq_none :
    decodeFamily8 op = none ↔ op.toNat % 16 ∈ [0x8, 0x9, 0xA, 0xB, 0xC, 0xD, 0xF] := by
  have hn : op.toNat % 16 < 16 := Nat.mod_lt _ (by decide)
  rw [decodeFamily8, fieldN_eq]
  generalize op.toNat % 16 = n at hn
  interval_cases n <;> simp

theorem decodeFamilyE_eq_none : decodeFamilyE op = none ↔ op.toNat % 256 ∉ [0x9E, 0xA1] := by
  rw [decodeFamilyE, fieldNN_toNat]
  split <;> simp_all

theorem decodeFamilyF_eq_none :
    decodeFamilyF op = none ↔ op.toNat % 256 ∉ [0x07, 0x0A, 0x15, 0x18, 0x1E, 0x29, 0x33, 0x55, 0x65] := by
  rw [decodeFamilyF, fieldNN_toNat]
  split <;> simp_all

/-- Settles O8: family by family, where only six families have a word that the decoder leaves. -/
theorem unknownWordsAreExactlyThoseListed : Obligations.UnknownWordsAreExactlyThoseListed := by
  intro op
  have hlt := op.isLt
  obtain ⟨f, hq⟩ : ∃ f, op.toNat / 4096 = f := ⟨_, rfl⟩
  have hf : fieldF op = f := by
    rw [fieldF_eq]
    omega
  have hf16 : f < 16 := by omega
  -- Each family is a constant answer, one fixed nibble, or one of the four family lemmas.
  interval_cases f <;>
    simp only [decodeOp, hf, hq, decodeFamily0_eq_none, decodeFamily8_eq_none, decodeFamilyE_eq_none,
      decodeFamilyF_eq_none, fieldN_eq] <;>
    simp

/-- Settles O9: fourteen words and two rejections, each decoded. -/
theorem writtenOutWordsDecode : Obligations.WrittenOutWordsDecode := by
  refine ⟨rfl, rfl, rfl, rfl, rfl, rfl, rfl, rfl, rfl, rfl, rfl, rfl, rfl, rfl, rfl, rfl⟩

end Sys2Proof
end
